-- ==== Sys2Proof/Word.lean ====
section
/-! DEFINITION. The word types of the block (00_scope.md R6, R8): a register word is 32 bits, a byte is 8 bits,
and the state matrix, the snapshot and the data buffer are each 16 words. -/

namespace Sys2Proof

/-- A u32 (R8): every register of the block, every command word and every bus datum. -/
abbrev Word := BitVec 32

/-- A u8 (R8). -/
abbrev Byte := BitVec 8

/-- Sixteen words: the state matrix X (R20), the snapshot S (R23), the data buffer DBUF (R29). -/
abbrev Words16 := Vector Word 16

/-- The 256-bit key as 8 words (R25). -/
abbrev KeyWords := Vector Word 8

/-- The 96-bit nonce as 3 words (R26). -/
abbrev NonceWords := Vector Word 3

end Sys2Proof
end

