-- ==== Sys2Proof/Config.lean ====
section
/-! DEFINITION. What is fixed for the life of one block (00_scope.md R7, 10_state.md R34): the two parameters the
spec lets the model take as arguments. They stand in State as one field that no step changes, so that a statement
about every state is a statement about every value of both parameters. -/

namespace Sys2Proof

/-- The parameters of R7. `window` is P_BASE divided by 0x1000: R7 and R60 make P_BASE a multiple of 0x1000, and a
number of windows cannot be anything else. -/
structure Params where
  /-- P_BASE / 0x1000 (R7, R60). -/
  window : Nat
  /-- P_RESTRICT_CTR (R7, R57): a host write to CTR of a value above 1 faults. -/
  restrictCtr : Bool
  deriving DecidableEq, Repr

/-- The size of the register window in bytes (R60). -/
abbrev windowSize : Nat := 0x1000

/-- P_BASE: the host address of byte offset 0 of the register window (R7, R60). -/
abbrev Params.pBase (p : Params) : Nat := windowSize * p.window

/-- The parameters State.reset is given. P_RESTRICT_CTR has the default R7 states. P_BASE is OPEN (R7, R60), and
window 0 is a DESIGN CHOICE (log entry 1): no statement rests on it. -/
def Params.default : Params := { window := 0, restrictCtr := false }

end Sys2Proof
end

