-- ==== Sys2Proof/Syntax.lean ====
section
/-! DEFINITION. The syntax of everything the block is given and everything it answers: the thirteen commands
(30_encoding.md R82), the registers of the window (20_memory.md R60), the host's transactions and the block's
responses (R52), the inputs of the block (R52, R210), and the lines of a host program (30_encoding.md R86, R87). -/

namespace Sys2Proof

/-- The commands of the block, one constructor per row of spec/opcode_table.json (R82). An operand of QR is an
index into X, and every 4-bit value names a word (R81), so its type is Fin 16. -/
inductive Instr where
  /-- R180 -/
  | nop
  /-- R104 -/
  | init
  /-- R122 -/
  | qr (a b c d : Fin 16)
  /-- R124 -/
  | colround
  /-- R126 -/
  | diaground
  /-- R128 -/
  | dround
  /-- R140 -/
  | snap
  /-- R142 -/
  | feedfwd
  /-- R144 -/
  | block
  /-- R162 -/
  | xorks
  /-- R164 -/
  | ctrinc
  /-- R166 -/
  | step
  /-- R182 -/
  | scrub
  deriving DecidableEq, Repr

/-- Why a command word is Illegal (R84): its three classes. -/
inductive IllegalWord where
  /-- An opcode from 0x0D to 0xFF, with any upper bits. -/
  | opcodeOutOfMap
  /-- A format-N opcode with any of bits 31:8 set. -/
  | reservedBitsN
  /-- QR with any of bits 31:24 set. -/
  | reservedBitsQ
  deriving DecidableEq, Repr

/-- The 32-bit registers of the window (R60), under the names of R86. `s` is the snapshot S. -/
inductive Reg where
  | cmd
  | status
  | finfo
  | len
  | ctr
  | key (i : Fin 8)
  | nonce (i : Fin 3)
  | dbuf (i : Fin 16)
  | x (i : Fin 16)
  | s (i : Fin 16)
  deriving DecidableEq, Repr

/-- The kind of a transaction (R52). -/
inductive AccessKind where
  | read
  | write
  deriving DecidableEq, Repr

/-- A host bus transaction (R52), at a host address: `off = addr - P_BASE` when the address is the block's (R61).
`size` is in bytes and is whatever the host's bus carries. -/
inductive Transaction where
  | read (addr size : Nat)
  | write (addr size : Nat) (data : Word)
  deriving DecidableEq, Repr

/-- The response to a transaction (R52). -/
inductive Response where
  /-- OK(v), of a Read. -/
  | okRead (v : Word)
  /-- OK, of a Write. -/
  | okWrite
  /-- ERR. -/
  | err
  deriving DecidableEq, Repr

/-- What reaches the block from outside: a transaction of the host (R52), or the platform's reset, which is an
input and no transaction and falls between two transactions (R210). -/
inductive Input where
  | txn (t : Transaction)
  | reset
  deriving DecidableEq, Repr

/-- `<reg>` of a host program line (R86): a register by name, or a window offset `@0xNNN`. -/
inductive RegRef where
  | named (r : Reg)
  | offset (off : Nat)
  deriving DecidableEq, Repr

/-- One line of a host program: the forms of R86 and the pseudo-instructions of R87. Numbers are as they are
written; WellFormed.lean says which lines are legal. -/
inductive HostLine where
  /-- `wr <reg>, <value>` -/
  | wr (r : RegRef) (v : Nat)
  /-- `rd <reg>` -/
  | rd (r : RegRef)
  /-- `rd <reg> -> <value>`: the same, annotated with the value the rules give -/
  | rdAnnotated (r : RegRef) (v : Nat)
  /-- `cmd <MNEMONIC>` of a format-N command -/
  | cmd (i : Instr)
  /-- `cmd QR <a>, <b>, <c>, <d>` -/
  | cmdQr (a b c d : Nat)
  /-- `wr.<size> @0xNNN, <value>` -/
  | wrSized (size off v : Nat)
  /-- `rd.<size> @0xNNN` -/
  | rdSized (size off : Nat)
  /-- `ldkey k0 .. k31` -/
  | ldkey (bytes : List Byte)
  /-- `ldnonce n0 .. n11` -/
  | ldnonce (bytes : List Byte)
  /-- `ldctr v` -/
  | ldctr (v : Nat)
  /-- `lddata b0 .. b(n-1)` -/
  | lddata (bytes : List Byte)
  /-- `rddata n` -/
  | rddata (n : Nat)
  /-- `rdstate` -/
  | rdstate
  /-- `chunk b0 .. b(n-1)` -/
  | chunk (bytes : List Byte)
  deriving DecidableEq, Repr

end Sys2Proof
end

