-- ==== Sys2Proof/Machine/State.lean ====
section
/-! DEFINITION. The state of the machine: every register of the block (10_state.md R20-R32, R37), its two parameters
(00_scope.md R7), and the host's side of the interface (R24, 20_memory.md R52, R71), as plain data; the codes a fault
is recorded under (60_exceptions.md R191); and the state after reset (70_reset_and_hazards.md R210). -/

namespace Sys2Proof.Machine

/-- The causes of a fault (R191). A fault of this hardware is a RECORD the machine goes on with (R193, R195), so
these are data of the state and not stops of the model. -/
inductive FaultCause where
  /-- ILLEGAL_CMD: a Write to CMD of a word that does not decode (R84). -/
  | illegalCmd
  /-- ALIAS: QR with two equal indices (R122). -/
  | aliased
  /-- BAD_LEN: XORKS or STEP with LEN > 64 (R162, R166). -/
  | badLen
  /-- BAD_COUNTER: a restricted Write to CTR (R57). -/
  | badCounter
  /-- BUS_ERROR: a refused bus access (R53, R54, R58). -/
  | busError
  deriving DecidableEq, Repr

/-- The stops of the model: none. Every fault of the spec is the record of R193, after which the host's next
transaction is served (R59, R195), so no step ends in a fault (log entry 7). -/
inductive Fault where
  deriving DecidableEq, Repr

/-- Why the model has no meaning for an instruction. -/
inductive Refusal where
  /-- Raised by an arm of exec whose instruction has no meaning yet, and by nothing else. Safe: the model stops
  where the hardware goes on. No arm raises it now. -/
  | notModelled (mnemonic : String)
  deriving DecidableEq, Repr

/-- The block's registers, its parameters, and the host's side of the interface. -/
structure State where
  /-- X, the state matrix (R20). -/
  x : Words16
  /-- S, the snapshot (R23). -/
  snap : Words16
  /-- KEY (R25). -/
  key : KeyWords
  /-- NONCE (R26). -/
  nonce : NonceWords
  /-- CTR, the block counter (R27). -/
  ctr : Word
  /-- LEN, the chunk length (R28). -/
  len : Word
  /-- DBUF, the data buffer (R29). -/
  dbuf : Words16
  /-- STATUS.FAULT (R31). -/
  fault : Bool
  /-- STATUS.FCODE (R31). -/
  fcode : BitVec 4
  /-- FINFO (R32). -/
  finfo : Word
  /-- P_BASE and P_RESTRICT_CTR (R7), which no step changes (R34). -/
  params : Params
  /-- What the host and the platform still send, the next input first (R71, R210; log entry 2). -/
  pending : List Input
  /-- The index of the host's next transaction (R24). -/
  pc : Nat
  /-- The block's responses so far, in order (R71; log entry 2). -/
  responses : List Response
  deriving DecidableEq, Repr

/-- The machine right after reset, for each value of the parameters (R210); nothing sent yet (log entry 2). -/
def State.resetWith (p : Params) : State where
  x := Vector.replicate 16 0
  snap := Vector.replicate 16 0
  key := Vector.replicate 8 0
  nonce := Vector.replicate 3 0
  ctr := 0
  len := 0
  dbuf := Vector.replicate 16 0
  fault := false
  fcode := 0
  finfo := 0
  params := p
  pending := []
  pc := 0
  responses := []

/-- The machine right after reset, with P_RESTRICT_CTR at the default of R7 (R210; P_BASE: log entry 1). -/
def State.reset : State := State.resetWith Params.default

end Sys2Proof.Machine
end

