-- ==== Sys2Proof/Machine/Flags.lean ====
section
/-! DEFINITION. The status register as the host reads it, the codes of its FCODE field, and the detail a bus error
records (10_state.md R31, 60_exceptions.md R191, 20_memory.md R53). The block has no other flag (R33). -/

namespace Sys2Proof.Machine

/-- The code of a fault in STATUS.FCODE (R191). -/
def FaultCause.code : FaultCause → BitVec 4
  | .illegalCmd => 1
  | .aliased => 2
  | .badLen => 3
  | .badCounter => 4
  | .busError => 5

/-- One bit as a word. -/
def bitWord (b : Bool) : Word := if b then 1 else 0

/-- STATUS as a Read returns it (R31, R55): the reserved bits read 0, and RESTRICT is the parameter. -/
def statusWord (s : State) : Word :=
  bitWord s.fault ||| (s.fcode.setWidth 32 <<< 8) ||| (bitWord s.params.restrictCtr <<< 16)

/-- `busInfo(kind, off, size)`, the FINFO of a bus error (R53). -/
def busInfo (kind : AccessKind) (off size : Nat) : Word :=
  (BitVec.ofNat 32 off &&& 0xFFF#32) ||| (BitVec.ofNat 32 (size % 16) <<< 16) ||| (bitWord (kind == .write) <<< 31)

end Sys2Proof.Machine
end

