-- ==== Sys2Proof/Machine/Operands.lean ====
section
/-! DEFINITION. Word arithmetic, the little-endian conversions between words and bytes, and every operand form of a
command: the byte views of the register arrays, the keystream bytes, and the index operands of QR (00_scope.md R9,
R10; 10_state.md R25-R29; 43_keystream.md R160; 41_quarter_round.md R122). -/

namespace Sys2Proof.Machine

/-- `add32(x, y) = (x + y) mod 2^32` (R9). -/
def add32 (x y : Word) : Word := x + y

/-- `xor32(x, y)` (R9). -/
def xor32 (x y : Word) : Word := x ^^^ y

/-- `rotl32(v, n) = ((v << n) | (v >> (32 - n))) mod 2^32`, for 0 < n < 32 (R9). -/
def rotl32 (v : Word) (n : Nat) : Word := (v <<< n) ||| (v >>> (32 - n))

/-- `le32(b0, b1, b2, b3)`: the little-endian decode of four bytes (R10). -/
def le32 (b0 b1 b2 b3 : Byte) : Word :=
  b0.setWidth 32 ||| (b1.setWidth 32 <<< 8) ||| (b2.setWidth 32 <<< 16) ||| (b3.setWidth 32 <<< 24)

/-- `byte(w, k) = w[8k+7 : 8k]` (R10). -/
def byteOf (w : Word) (k : Nat) : Byte := w.extractLsb' (8 * k) 8

/-- `lebytes(W)` of a sequence of words: four bytes of each, the lowest first (R10). -/
def lebytes (words : List Word) : List Byte :=
  words.flatMap fun w => [byteOf w 0, byteOf w 1, byteOf w 2, byteOf w 3]

/-- The bits of byte 0 of a word. -/
def byteMask : Word := 0xFF

/-- The word w with its bits `[8k+7 : 8k]` replaced by v (R29). -/
def replaceByte (w : Word) (k : Nat) (v : Byte) : Word :=
  (w &&& ~~~(byteMask <<< (8 * k))) ||| (v.setWidth 32 <<< (8 * k))

/-- `lebytes(W)[j] = byte(W[j div 4], j mod 4)` (R10): the byte view of a register array (R29). -/
def leByte {n : Nat} (ws : Vector Word n) (j : Fin (4 * n)) : Byte :=
  byteOf (ws[j.val / 4]'(by have := j.isLt; omega)) (j.val % 4)

/-- Writing byte j of a register array replaces that byte of its word and leaves the other bits alone (R29). -/
def setLeByte {n : Nat} (ws : Vector Word n) (j : Fin (4 * n)) (v : Byte) : Vector Word n :=
  ws.set (j.val / 4) (replaceByte (ws[j.val / 4]'(by have := j.isLt; omega)) (j.val % 4) v)
    (by have := j.isLt; omega)

/-- `KEYB(j)` (R25). -/
def keyByte (key : KeyWords) (j : Fin 32) : Byte := leByte key j

/-- `NONCEB(j)` (R26). -/
def nonceByte (nonce : NonceWords) (j : Fin 12) : Byte := leByte nonce j

/-- `DBUFB(j)` (R29). -/
def dbufByte (dbuf : Words16) (j : Fin 64) : Byte := leByte dbuf j

/-- `DBUFB(j) <- v` (R29). -/
def setDbufByte (dbuf : Words16) (j : Fin 64) (v : Byte) : Words16 := setLeByte dbuf j v

/-- `KS(j)`: byte j of the keystream block, the little-endian serialization of X (R160). -/
def keystreamByte (x : Words16) (j : Fin 64) : Byte := leByte x j

/-- The index operands of QR are pairwise distinct, a and d too (R122, 90_conflicts.md C2). -/
def indicesDistinct (a b c d : Fin 16) : Bool :=
  !(a == b || a == c || a == d || b == c || b == d || c == d)

end Sys2Proof.Machine
end

