-- ==== Sys2Proof/Machine/Ops.lean ====
section
/-! DEFINITION. The named operations over the registers that every meaning is written in: one update per register,
taking a fault (60_exceptions.md R193), the freeze (R195), the reset of the registers, which is the only return from
a fault (70_reset_and_hazards.md R210, 60_exceptions.md R198), and ending a transaction (20_memory.md R52). -/

namespace Sys2Proof.Machine

/-- `X <- v` -/
def State.setX (s : State) (v : Words16) : State := { s with x := v }

/-- `S <- v` -/
def State.setSnap (s : State) (v : Words16) : State := { s with snap := v }

/-- `KEY <- v` -/
def State.setKey (s : State) (v : KeyWords) : State := { s with key := v }

/-- `NONCE <- v` -/
def State.setNonce (s : State) (v : NonceWords) : State := { s with nonce := v }

/-- `CTR <- v` -/
def State.setCtr (s : State) (v : Word) : State := { s with ctr := v }

/-- `LEN <- v` -/
def State.setLen (s : State) (v : Word) : State := { s with len := v }

/-- `DBUF <- v` -/
def State.setDbuf (s : State) (v : Words16) : State := { s with dbuf := v }

/-- The fault record: `STATUS.FAULT <- 1; STATUS.FCODE <- code; FINFO <- info` (R193). -/
def State.setRecord (s : State) (code : BitVec 4) (info : Word) : State :=
  { s with fault := true, fcode := code, finfo := info }

/-- What the host and the platform still send. -/
def State.setPending (s : State) (l : List Input) : State := { s with pending := l }

/-- `raise Fault(code, info)` (R193): the one operation that takes a fault. Only the first fault since reset is
recorded; a later one changes nothing. -/
def State.raise (s : State) (cause : FaultCause) (info : Word) : State :=
  if s.fault then s else s.setRecord cause.code info

/-- A command is ignored while STATUS.FAULT = 1 (R195): the exception that every command but SCRUB lists. -/
def State.unlessFaulted (s : State) (command : State → State) : State :=
  if s.fault then s else command s

/-- Every secret-carrying register and LEN to zero: the registers SCRUB and reset have in common (R182, R210). -/
def State.zeroSecrets (s : State) : State :=
  (((((((s.setKey (Vector.replicate 8 0)).setNonce (Vector.replicate 3 0)).setCtr 0).setLen 0).setDbuf
    (Vector.replicate 16 0)).setX (Vector.replicate 16 0)).setSnap (Vector.replicate 16 0))

/-- The platform's reset (R210): every register at its reset value, the fault record cleared. RESTRICT is hardwired
(R210), and the host's side is not the block's (R24; log entry 5). -/
def State.resetRegisters (s : State) : State :=
  { s.zeroSecrets with fault := false, fcode := 0, finfo := 0 }

/-- A transaction of the block ends with its response (R52), and the host's pc moves on by 1 whether the response is
OK or ERR (R24). -/
def State.complete (s : State) (r : Response) : State :=
  { s with responses := s.responses ++ [r], pc := s.pc + 1 }

/-- A transaction that is not the block's ends without a response from the block (R61; log entry 4). -/
def State.passBy (s : State) : State := { s with pc := s.pc + 1 }

/-- The answer of a step, changed only where it is a next state. -/
def mapNext (f : State → State) :
    Host.Outcome State Fault Refusal → Host.Outcome State Fault Refusal
  | .next t => .next (f t)
  | .fault r => .fault r
  | .refused r => .refused r

/-- The next state, where the answer is one. -/
def nextState : Host.Outcome State Fault Refusal → Option State
  | .next t => some t
  | .fault _ => none
  | .refused _ => none

end Sys2Proof.Machine
end

