-- ==== Sys2Proof/Machine/Control.lean ====
section
/-! DEFINITION. The control commands NOP and SCRUB (44_control.md R180, R182). -/

namespace Sys2Proof.Machine

/-- NOP (R180): no effect. Ignored while FAULT = 1, which is the same. -/
def execNop (s : State) : Host.Outcome State Fault Refusal := .next (s.unlessFaulted id)

/-- SCRUB (R182): every secret-carrying register to zero. STATUS and FINFO are not changed, and it is the one command
that runs while FAULT = 1 (R195). -/
def execScrub (s : State) : Host.Outcome State Fault Refusal := .next s.zeroSecrets

end Sys2Proof.Machine
end

