-- ==== Sys2Proof/WellFormed.lean ====
section
/-! DEFINITION. Which terms of the syntax the spec's syntax admits. A term of Instr has no check of its own: its
only operands are four indices, every 4-bit value names a word (R81), and Fin 16 holds exactly those values. The
checks are those of a host program's lines (30_encoding.md R86, R87), whose numbers and byte lists can be out of
range. -/

namespace Sys2Proof

/-- A format-N command (R80): every command but QR. -/
def Instr.formatN : Instr → Bool
  | .qr _ _ _ _ => false
  | .nop | .init | .colround | .diaground | .dround | .snap | .feedfwd | .block | .xorks | .ctrinc | .step
  | .scrub => true

/-- `<value>` is a u32 (R86, R8). -/
def u32Value (v : Nat) : Bool := decide (v < 2 ^ 32)

/-- A window offset is below the window's size (R52, R60). -/
def windowOffset (off : Nat) : Bool := decide (off < windowSize)

/-- `<size>` of a `wr.<size>` or `rd.<size>` line: 1, 2 or 8 (R86). -/
def sizedAccess (size : Nat) : Bool := size == 1 || size == 2 || size == 8

/-- A QR index of a line is a decimal number in 0..15 (R86). -/
def qrIndex (n : Nat) : Bool := decide (n < 16)

/-- A register reference: any name, or an offset in the window (R86). -/
def RegRef.wellFormed : RegRef → Bool
  | .named _ => true
  | .offset off => windowOffset off

/-- A line of a host program is legal (R86, R87). -/
def HostLine.wellFormed : HostLine → Bool
  | .wr r v => r.wellFormed && u32Value v
  | .rd r => r.wellFormed
  | .rdAnnotated r v => r.wellFormed && u32Value v
  | .cmd i => i.formatN
  | .cmdQr a b c d => qrIndex a && qrIndex b && qrIndex c && qrIndex d
  | .wrSized size off v => sizedAccess size && windowOffset off && u32Value v
  | .rdSized size off => sizedAccess size && windowOffset off
  | .ldkey bytes => bytes.length == 32
  | .ldnonce bytes => bytes.length == 12
  | .ldctr v => u32Value v
  | .lddata bytes => decide (bytes.length ≤ 64)
  | .rddata n => decide (n ≤ 64)
  | .rdstate => true
  | .chunk bytes => decide (bytes.length ≤ 64)

end Sys2Proof
end

