-- ==== Sys2Proof/Decode.lean ====
section
/-! DEFINITION. The command decoder (30_encoding.md R80-R85), total on every 32-bit word and rejecting by name, the
encoder (R80, R88), and the opcode table as data (R82, spec/opcode_table.json). -/

namespace Sys2Proof

/-- `op = w[7:0]` (R80). -/
def opField (w : Word) : BitVec 8 := w.extractLsb' 0 8

/-- `w[31:8]`, the reserved field of format N (R80). -/
def reservedN (w : Word) : BitVec 24 := w.extractLsb' 8 24

/-- `w[31:24]`, the reserved field of format Q (R80). -/
def reservedQ (w : Word) : BitVec 8 := w.extractLsb' 24 8

/-- A 4-bit index field whose lowest bit is `lo`, as an unsigned index into X (R81). -/
def indexField (w : Word) (lo : Nat) : Fin 16 := (w.extractLsb' lo 4).toFin

/-- The format-N command of an opcode (R82). -/
def formatNCommand (op : BitVec 8) : Option Instr :=
  match op.toNat with
  | 0x00 => some .nop
  | 0x01 => some .init
  | 0x03 => some .colround
  | 0x04 => some .diaground
  | 0x05 => some .dround
  | 0x06 => some .snap
  | 0x07 => some .feedfwd
  | 0x08 => some .block
  | 0x09 => some .xorks
  | 0x0A => some .ctrinc
  | 0x0B => some .step
  | 0x0C => some .scrub
  | _ => none

/-- The decoder of R83, with the class of R84 a rejected word falls in. -/
def decode (w : Word) : Except IllegalWord Instr :=
  if opField w = 0x02 then
    if reservedQ w ≠ 0 then .error .reservedBitsQ
    else .ok (.qr (indexField w 8) (indexField w 12) (indexField w 16) (indexField w 20))
  else
    match formatNCommand (opField w) with
    | none => .error .opcodeOutOfMap
    | some i => if reservedN w ≠ 0 then .error .reservedBitsN else .ok i

/-- One index of QR at its place in the word (R80). -/
def indexBits (i : Fin 16) (lo : Nat) : Word := BitVec.ofNat 32 i.val <<< lo

/-- The word of each command (R88). -/
def encode : Instr → Word
  | .nop => 0x00000000
  | .init => 0x00000001
  | .qr a b c d => 0x00000002 ||| indexBits a 8 ||| indexBits b 12 ||| indexBits c 16 ||| indexBits d 20
  | .colround => 0x00000003
  | .diaground => 0x00000004
  | .dround => 0x00000005
  | .snap => 0x00000006
  | .feedfwd => 0x00000007
  | .block => 0x00000008
  | .xorks => 0x00000009
  | .ctrinc => 0x0000000A
  | .step => 0x0000000B
  | .scrub => 0x0000000C

/-- A row of spec/opcode_table.json: a word w selects it when `w & mask == match` (R83). -/
structure OpcodeRow where
  mnemonic : String
  pattern : Word
  mask : Word
  deriving DecidableEq, Repr

/-- The word w selects the row (R83). -/
def OpcodeRow.selects (r : OpcodeRow) (w : Word) : Bool := w &&& r.mask == r.pattern

/-- The row of spec/opcode_table.json each command stands for. -/
def opcodeRow : Instr → OpcodeRow
  | .nop => ⟨"NOP", 0x00000000, 0xFFFFFFFF⟩
  | .init => ⟨"INIT", 0x00000001, 0xFFFFFFFF⟩
  | .qr _ _ _ _ => ⟨"QR", 0x00000002, 0xFF0000FF⟩
  | .colround => ⟨"COLROUND", 0x00000003, 0xFFFFFFFF⟩
  | .diaground => ⟨"DIAGROUND", 0x00000004, 0xFFFFFFFF⟩
  | .dround => ⟨"DROUND", 0x00000005, 0xFFFFFFFF⟩
  | .snap => ⟨"SNAP", 0x00000006, 0xFFFFFFFF⟩
  | .feedfwd => ⟨"FEEDFWD", 0x00000007, 0xFFFFFFFF⟩
  | .block => ⟨"BLOCK", 0x00000008, 0xFFFFFFFF⟩
  | .xorks => ⟨"XORKS", 0x00000009, 0xFFFFFFFF⟩
  | .ctrinc => ⟨"CTRINC", 0x0000000A, 0xFFFFFFFF⟩
  | .step => ⟨"STEP", 0x0000000B, 0xFFFFFFFF⟩
  | .scrub => ⟨"SCRUB", 0x0000000C, 0xFFFFFFFF⟩

/-- The thirteen rows of spec/opcode_table.json, in its order. -/
def opcodeTable : List OpcodeRow :=
  [.nop, .init, .qr 0 0 0 0, .colround, .diaground, .dround, .snap, .feedfwd, .block, .xorks, .ctrinc, .step,
   .scrub].map opcodeRow

/-- The decoder on a word given as the host of this row numbers its bits. A command is exactly one 32-bit word
(R80, R85), the table's bit 0 is bit 0 of that word (R8), and a bit above `nbits` is 0. -/
def decodeTableWord (nbits w : Nat) : Option Instr :=
  if w % 2 ^ nbits < 2 ^ 32 then (decode (BitVec.ofNat 32 (w % 2 ^ nbits))).toOption else none

end Sys2Proof
end

