-- ==== Sys2Proof/Machine/QuarterRound.lean ====
section
/-! DEFINITION. The quarter-round permutation engine: the ARX micro-operation, QR, COLROUND, DIAGROUND and DROUND
(41_quarter_round.md R120-R128). -/

namespace Sys2Proof.Machine

/-- `ARX(p, q, t, r)` (R120): three statements in order, each seeing the writes of the one before (R12). -/
def arx (p q t : Fin 16) (r : Nat) (x : Words16) : Words16 :=
  let x := x.set p (add32 x[p] x[q])
  let x := x.set t (xor32 x[t] x[p])
  x.set t (rotl32 x[t] r)

/-- `QRSTEPS(a, b, c, d)` (R121). -/
def qrSteps (a b c d : Fin 16) (x : Words16) : Words16 :=
  let x := arx a b d 16 x
  let x := arx c d b 12 x
  let x := arx a b d 8 x
  arx c d b 7 x

/-- The four column quarter-rounds, in the order of R124. -/
def columnRound (x : Words16) : Words16 :=
  let x := qrSteps 0 4 8 12 x
  let x := qrSteps 1 5 9 13 x
  let x := qrSteps 2 6 10 14 x
  qrSteps 3 7 11 15 x

/-- The four diagonal quarter-rounds, in the order of R126. -/
def diagonalRound (x : Words16) : Words16 :=
  let x := qrSteps 0 5 10 15 x
  let x := qrSteps 1 6 11 12 x
  let x := qrSteps 2 7 8 13 x
  qrSteps 3 4 9 14 x

/-- A double-round: the column round, then the diagonal round (R128). -/
def doubleRound (x : Words16) : Words16 := diagonalRound (columnRound x)

/-- The body of QR (R122): the check on the indices comes before any write. Its FINFO is the command word, which is
the encoding of the command, since a command has one word (R80, R83; log entry 9). -/
def qrBody (a b c d : Fin 16) (s : State) : State :=
  if indicesDistinct a b c d then s.setX (qrSteps a b c d s.x)
  else s.raise .aliased (encode (.qr a b c d))

/-- QR a, b, c, d (R122). -/
def execQr (a b c d : Fin 16) (s : State) : Host.Outcome State Fault Refusal :=
  .next (s.unlessFaulted (qrBody a b c d))

/-- COLROUND (R124). -/
def execColround (s : State) : Host.Outcome State Fault Refusal :=
  .next (s.unlessFaulted fun s => s.setX (columnRound s.x))

/-- DIAGROUND (R126). -/
def execDiaground (s : State) : Host.Outcome State Fault Refusal :=
  .next (s.unlessFaulted fun s => s.setX (diagonalRound s.x))

/-- DROUND (R128). -/
def execDround (s : State) : Host.Outcome State Fault Refusal :=
  .next (s.unlessFaulted fun s => s.setX (doubleRound s.x))

end Sys2Proof.Machine
end

