-- ==== Sys2Proof/Machine/BlockFunction.lean ====
section
/-! DEFINITION. The block transformation with feed-forward: SNAP, FEEDFWD and BLOCK (42_block.md R140-R144). -/

namespace Sys2Proof.Machine

/-- `repeat n { f }` (R11). -/
def repeatTimes {α : Type} : Nat → (α → α) → α → α
  | 0, _, x => x
  | n + 1, f, x => repeatTimes n f (f x)

/-- `for i in 0..15: X[i] <- add32(X[i], S[i])`, as the words written (R142). -/
def addWords (x y : Words16) : Words16 := Vector.ofFn fun i : Fin 16 => add32 x[i] y[i]

/-- The body of SNAP (R140). -/
def snapBody (s : State) : State := s.setSnap s.x

/-- The ten double-rounds of BLOCK on X (R144). -/
def roundsBody (s : State) : State := s.setX (repeatTimes 10 doubleRound s.x)

/-- The body of FEEDFWD (R142). -/
def feedfwdBody (s : State) : State := s.setX (addWords s.x s.snap)

/-- The body of BLOCK (R144): the snapshot, 10 double-rounds, the feed-forward. -/
def blockBody (s : State) : State := feedfwdBody (roundsBody (snapBody s))

/-- SNAP (R140). -/
def execSnap (s : State) : Host.Outcome State Fault Refusal := .next (s.unlessFaulted snapBody)

/-- FEEDFWD (R142). -/
def execFeedfwd (s : State) : Host.Outcome State Fault Refusal := .next (s.unlessFaulted feedfwdBody)

/-- BLOCK (R144): total, over any X. -/
def execBlock (s : State) : Host.Outcome State Fault Refusal := .next (s.unlessFaulted blockBody)

end Sys2Proof.Machine
end

