-- ==== Sys2Proof/Machine/Initializer.lean ====
section
/-! DEFINITION. The state initializer: the constants, the key and nonce decode, and INIT (40_state_init.md
R100-R105). -/

namespace Sys2Proof.Machine

/-- The constant words (R100), hardwired (R34). -/
def sigma : Vector Word 4 := #v[0x61707865, 0x3320646e, 0x79622d32, 0x6b206574]

/-- `keyword(i)`: key word i, decoded little-endian from the key's bytes (R101). -/
def keyword (key : KeyWords) (i : Fin 8) : Word :=
  le32 (keyByte key ⟨4 * i, by omega⟩) (keyByte key ⟨4 * i + 1, by omega⟩)
    (keyByte key ⟨4 * i + 2, by omega⟩) (keyByte key ⟨4 * i + 3, by omega⟩)

/-- `nonceword(i)`: nonce word i, decoded little-endian from the nonce's bytes (R102). -/
def nonceword (nonce : NonceWords) (i : Fin 3) : Word :=
  le32 (nonceByte nonce ⟨4 * i, by omega⟩) (nonceByte nonce ⟨4 * i + 1, by omega⟩)
    (nonceByte nonce ⟨4 * i + 2, by omega⟩) (nonceByte nonce ⟨4 * i + 3, by omega⟩)

/-- The 16 words INIT writes, in the order of the indices of X (R104, R103, R21). -/
def initialMatrix (key : KeyWords) (nonce : NonceWords) (ctr : Word) : Words16 :=
  #v[sigma[0], sigma[1], sigma[2], sigma[3],
     keyword key 0, keyword key 1, keyword key 2, keyword key 3,
     keyword key 4, keyword key 5, keyword key 6, keyword key 7,
     ctr, nonceword nonce 0, nonceword nonce 1, nonceword nonce 2]

/-- The body of INIT (R104): all 16 words of X, whatever X held. -/
def initBody (s : State) : State := s.setX (initialMatrix s.key s.nonce s.ctr)

/-- INIT (R104), the source's `construct` and `rewrite` (R105). -/
def execInit (s : State) : Host.Outcome State Fault Refusal := .next (s.unlessFaulted initBody)

end Sys2Proof.Machine
end

