-- ==== Sys2Proof/Machine/Keystream.lean ====
section
/-! DEFINITION. The keystream XOR unit and the block-counter sequencer: XORKS, CTRINC and STEP (43_keystream.md
R160-R166). -/

namespace Sys2Proof.Machine

/-- `for j in 0..n-1: DBUFB(j) <- DBUFB(j) xor KS(j)` (R162), for n at most 64. -/
def xorBytes (x : Words16) : (n : Nat) → n ≤ 64 → Words16 → Words16
  | 0, _, dbuf => dbuf
  | n + 1, h, dbuf =>
    let dbuf := xorBytes x n (by omega) dbuf
    setDbufByte dbuf ⟨n, by omega⟩ (dbufByte dbuf ⟨n, by omega⟩ ^^^ keystreamByte x ⟨n, by omega⟩)

/-- The body of XORKS without its check (R162, R166): the first n bytes of DBUF, by X as it stands. -/
def xorksBody (n : Nat) (h : n ≤ 64) (s : State) : State := s.setDbuf (xorBytes s.x n h s.dbuf)

/-- The body of CTRINC (R164): wraps, and sets no flag. -/
def ctrincBody (s : State) : State := s.setCtr (add32 s.ctr 1)

/-- The check XORKS and STEP share: LEN > 64 is BAD_LEN, before any write, with the command's word as FINFO (R162,
R166; log entry 9). -/
def withLegalLen (i : Instr) (body : (n : Nat) → n ≤ 64 → State → State) (s : State) : State :=
  if h : s.len.toNat ≤ 64 then body s.len.toNat h s else s.raise .badLen (encode i)

/-- The body of STEP (R166): INIT, BLOCK, XORKS without its check, the counter. -/
def stepBody (n : Nat) (h : n ≤ 64) (s : State) : State :=
  ctrincBody (xorksBody n h (blockBody (initBody s)))

/-- XORKS (R162). -/
def execXorks (s : State) : Host.Outcome State Fault Refusal :=
  .next (s.unlessFaulted (withLegalLen .xorks xorksBody))

/-- CTRINC (R164). P_RESTRICT_CTR does not apply (R57). -/
def execCtrinc (s : State) : Host.Outcome State Fault Refusal := .next (s.unlessFaulted ctrincBody)

/-- STEP (R166). -/
def execStep (s : State) : Host.Outcome State Fault Refusal :=
  .next (s.unlessFaulted (withLegalLen .step stepBody))

end Sys2Proof.Machine
end

