-- ==== Sys2Proof/Machine/Dispatch.lean ====
section
/-! DEFINITION. One arm per command: exec hands each command to its meaning (30_encoding.md R82, R83). -/

namespace Sys2Proof.Machine

def exec (i : Instr) (s : State) : Host.Outcome State Fault Refusal :=
  match i with
  | .nop => Sys2Proof.Machine.execNop s
  | .init => Sys2Proof.Machine.execInit s
  | .qr a b c d => Sys2Proof.Machine.execQr a b c d s
  | .colround => Sys2Proof.Machine.execColround s
  | .diaground => Sys2Proof.Machine.execDiaground s
  | .dround => Sys2Proof.Machine.execDround s
  | .snap => Sys2Proof.Machine.execSnap s
  | .feedfwd => Sys2Proof.Machine.execFeedfwd s
  | .block => Sys2Proof.Machine.execBlock s
  | .xorks => Sys2Proof.Machine.execXorks s
  | .ctrinc => Sys2Proof.Machine.execCtrinc s
  | .step => Sys2Proof.Machine.execStep s
  | .scrub => Sys2Proof.Machine.execScrub s

end Sys2Proof.Machine
end

