-- ==== Sys2Proof/Machine/Window.lean ====
section
/-! DEFINITION. The register window: the address map and the value a Read of each register returns (20_memory.md R55,
R60). -/

namespace Sys2Proof.Machine

/-- The window offset of each register (R60). -/
def regOffset : Reg → Nat
  | .cmd => 0x000
  | .status => 0x004
  | .finfo => 0x008
  | .len => 0x00C
  | .ctr => 0x010
  | .key i => 0x020 + 4 * i
  | .nonce i => 0x040 + 4 * i
  | .dbuf i => 0x080 + 4 * i
  | .x i => 0x100 + 4 * i
  | .s i => 0x140 + 4 * i

/-- The register at a word-aligned window offset; none where the map says reserved (R60, R54). -/
def regAt (off : Nat) : Option Reg :=
  if off = 0x000 then some .cmd
  else if off = 0x004 then some .status
  else if off = 0x008 then some .finfo
  else if off = 0x00C then some .len
  else if off = 0x010 then some .ctr
  else if h : 0x020 ≤ off ∧ off < 0x040 then some (.key ⟨(off - 0x020) / 4, by omega⟩)
  else if h : 0x040 ≤ off ∧ off < 0x04C then some (.nonce ⟨(off - 0x040) / 4, by omega⟩)
  else if h : 0x080 ≤ off ∧ off < 0x0C0 then some (.dbuf ⟨(off - 0x080) / 4, by omega⟩)
  else if h : 0x100 ≤ off ∧ off < 0x140 then some (.x ⟨(off - 0x100) / 4, by omega⟩)
  else if h : 0x140 ≤ off ∧ off < 0x180 then some (.s ⟨(off - 0x140) / 4, by omega⟩)
  else none

/-- What an aligned 32-bit Read of a register returns (R55): CMD has no storage and reads 0 (R30). -/
def readReg (r : Reg) (s : State) : Word :=
  match r with
  | .cmd => 0
  | .status => statusWord s
  | .finfo => s.finfo
  | .len => s.len
  | .ctr => s.ctr
  | .key i => s.key[i]
  | .nonce i => s.nonce[i]
  | .dbuf i => s.dbuf[i]
  | .x i => s.x[i]
  | .s i => s.snap[i]

/-- A host address is in the block's window (R60, R61). -/
def inWindow (p : Params) (addr : Nat) : Bool := decide (p.pBase ≤ addr ∧ addr < p.pBase + windowSize)

/-- The access has the one width and alignment the block serves (R53). -/
def servable (off size : Nat) : Bool := size == 4 && off % 4 == 0

/-- The byte at a window offset, in its little-endian lane of the register word that holds it (R50). -/
def windowByte (off : Nat) (s : State) : Option Byte :=
  (regAt (4 * (off / 4))).map fun r => byteOf (readReg r s) (off % 4)

end Sys2Proof.Machine
end

