-- ==== Sys2Proof/Machine/Bus.lean ====
section
/-! DEFINITION. The block's answer to what reaches it: reads, writes and commands in the order of the fault priority
(20_memory.md R52-R61, 60_exceptions.md R195, R196), and the platform's reset (70_reset_and_hazards.md R210). -/

namespace Sys2Proof.Machine

/-- The exact word that runs while FAULT = 1 (R195). -/
def scrubWord : Word := 0x0000000C

/-- A Write of w to CMD: the freeze of R195, then the decoder of R83, then the command. -/
def command (w : Word) (s : State) : Host.Outcome State Fault Refusal :=
  if s.fault && w != scrubWord then .next s
  else
    match decode w with
    | .error _ => .next (s.raise .illegalCmd w)
    | .ok i => exec i s

/-- A refused access: BUS_ERROR with its busInfo, and the response ERR (R53, R54, R58). -/
def busError (kind : AccessKind) (off size : Nat) (s : State) : State :=
  (s.raise .busError (busInfo kind off size)).complete .err

/-- A Write of v to CTR (R57). -/
def writeCtr (v : Word) (s : State) : State :=
  if s.params.restrictCtr && decide (1 < v.toNat) then s.raise .badCounter v else s.setCtr v

/-- A Read at a window offset (R53-R55). -/
def busRead (off size : Nat) (s : State) : State :=
  if servable off size then
    match regAt off with
    | none => busError .read off size s
    | some r => s.complete (.okRead (readReg r s))
  else busError .read off size s

/-- An aligned 32-bit Write of v to the register r at the offset `off` (R56-R58). -/
def writeReg (off : Nat) (r : Reg) (v : Word) (s : State) : Host.Outcome State Fault Refusal :=
  match r with
  | .cmd => mapNext (·.complete .okWrite) (command v s)
  | .ctr => .next ((writeCtr v s).complete .okWrite)
  | .len => .next ((s.setLen v).complete .okWrite)
  | .key i => .next ((s.setKey (s.key.set i v)).complete .okWrite)
  | .nonce i => .next ((s.setNonce (s.nonce.set i v)).complete .okWrite)
  | .dbuf i => .next ((s.setDbuf (s.dbuf.set i v)).complete .okWrite)
  | .status | .finfo | .x _ | .s _ => .next (busError .write off 4 s)

/-- A Write at a window offset (R53, R54, R56-R58). -/
def busWrite (off size : Nat) (v : Word) (s : State) : Host.Outcome State Fault Refusal :=
  if servable off size then
    match regAt off with
    | none => .next (busError .write off size s)
    | some r => writeReg off r v s
  else .next (busError .write off size s)

/-- A transaction of the host. An address outside the window is not the block's (R61). -/
def transact (t : Transaction) (s : State) : Host.Outcome State Fault Refusal :=
  match t with
  | .read addr size =>
    if inWindow s.params addr then .next (busRead (addr - s.params.pBase) size s) else .next s.passBy
  | .write addr size v =>
    if inWindow s.params addr then busWrite (addr - s.params.pBase) size v s else .next s.passBy

/-- One input of the block: a transaction, or the platform's reset (R210). -/
def serve (i : Input) (s : State) : Host.Outcome State Fault Refusal :=
  match i with
  | .txn t => transact t s
  | .reset => .next s.resetRegisters

/-- The transaction that issues a command word: an aligned 32-bit Write to CMD (R80). -/
def commandWrite (p : Params) (w : Word) : Transaction := .write (p.pBase + regOffset .cmd) 4 w

end Sys2Proof.Machine
end

