-- ==== Sys2Proof/Machine/Step.lean ====
section
/-! DEFINITION. One step of the machine: the next input is served whole (20_memory.md R64, R65). With no input the
block is idle and holds all of its state (60_exceptions.md R205, 70_reset_and_hazards.md R211; log entry 3). -/

namespace Sys2Proof.Machine

/-- One step. -/
def step (s : State) : Host.Outcome State Fault Refusal :=
  match s.pending with
  | [] => .next s
  | i :: rest => serve i (s.setPending rest)

/-- The state whose next input is the host's write of the command word w to CMD: the block fetches no instruction
(R68), and this is where its next command comes from (log entry 2). -/
def State.withFetchWord (s : State) (nbits w : Nat) : State :=
  s.setPending (.txn (commandWrite s.params (BitVec.ofNat 32 (w % 2 ^ nbits))) :: s.pending)

end Sys2Proof.Machine
end

