-- ==== Sys2Proof/Machine/HostProgram.lean ====
section
/-! DEFINITION. The host's side: what each line of a host program sends and the bytes it hands the host (30_encoding.md
R86, R87), and the host program `process` with its output, which is `encrypt` and `decrypt` (43_keystream.md R168). The
lines are syntax already; reading them from text is no part of the model (log entry 10). -/

namespace Sys2Proof.Machine

/-- The window offset a register reference names (R86). -/
def refOffset : RegRef → Nat
  | .named r => regOffset r
  | .offset off => off

/-- An aligned 32-bit Write to a register (R86). -/
def wrTransaction (p : Params) (r : Reg) (v : Word) : Transaction := .write (p.pBase + regOffset r) 4 v

/-- An aligned 32-bit Read of a register (R86). -/
def rdTransaction (p : Params) (r : Reg) : Transaction := .read (p.pBase + regOffset r) 4

/-- `le32(b[4i], b[4i+1], b[4i+2], b[4i+3])`, with a byte past the end taken as 0 (R87). -/
def wordOfBytes (bytes : List Byte) (i : Nat) : Word :=
  le32 (bytes.getD (4 * i) 0) (bytes.getD (4 * i + 1) 0) (bytes.getD (4 * i + 2) 0) (bytes.getD (4 * i + 3) 0)

/-- The indices `0 .. ceil(n/4)-1` of the data buffer's words that hold its first n bytes (R87). -/
def dbufIndices (n : Nat) : List (Fin 16) := (List.finRange 16).filter fun i => 4 * i.val < n

/-- `lddata` (R87). -/
def loadData (p : Params) (bytes : List Byte) : List Transaction :=
  wrTransaction p .len (BitVec.ofNat 32 bytes.length) ::
    (dbufIndices bytes.length).map fun i => wrTransaction p (.dbuf i) (wordOfBytes bytes i)

/-- `rddata` (R87). -/
def readData (p : Params) (n : Nat) : List Transaction :=
  (dbufIndices n).map fun i => rdTransaction p (.dbuf i)

/-- The transactions a line stands for (R86, R87). -/
def expandLine (p : Params) : HostLine → List Transaction
  | .wr r v => [.write (p.pBase + refOffset r) 4 (BitVec.ofNat 32 v)]
  | .rd r => [.read (p.pBase + refOffset r) 4]
  | .rdAnnotated r _ => [.read (p.pBase + refOffset r) 4]
  | .cmd i => [commandWrite p (encode i)]
  | .cmdQr a b c d =>
    [commandWrite p (encode (.qr (Fin.ofNat 16 a) (Fin.ofNat 16 b) (Fin.ofNat 16 c) (Fin.ofNat 16 d)))]
  | .wrSized size off v => [.write (p.pBase + off) size (BitVec.ofNat 32 v)]
  | .rdSized size off => [.read (p.pBase + off) size]
  | .ldkey bytes => (List.finRange 8).map fun i => wrTransaction p (.key i) (wordOfBytes bytes i)
  | .ldnonce bytes => (List.finRange 3).map fun i => wrTransaction p (.nonce i) (wordOfBytes bytes i)
  | .ldctr v => [wrTransaction p .ctr (BitVec.ofNat 32 v)]
  | .lddata bytes => loadData p bytes
  | .rddata n => readData p n
  | .rdstate => (List.finRange 16).map fun i => rdTransaction p (.x i)
  | .chunk bytes => List.append (loadData p bytes) (commandWrite p (encode .step) :: readData p bytes.length)

/-- The words that Reads were answered with, in order (R52). -/
def readWords (responses : List Response) : List Word :=
  responses.filterMap fun
    | .okRead v => some v
    | .okWrite => none
    | .err => none

/-- "The chunk is the first n bytes of `lebytes` of the words read" (R87). -/
def readChunk (n : Nat) (responses : List Response) : List Byte := (lebytes (readWords responses)).take n

/-- The bytes a line hands the host, from the responses to its own transactions: those of an `rddata`, alone or in a
`chunk`, whose Writes are answered with no word (R87). -/
def lineOutput (l : HostLine) (responses : List Response) : List Byte :=
  match l with
  | .rddata n => readChunk n responses
  | .chunk bytes => readChunk bytes.length responses
  | .wr _ _ | .rd _ | .rdAnnotated _ _ | .cmd _ | .cmdQr _ _ _ _ | .wrSized _ _ _ | .rdSized _ _ | .ldkey _
  | .ldnonce _ | .ldctr _ | .lddata _ | .rdstate => []

/-- The bytes a program hands the host, line after line (R168). Every transaction of a well-formed line is in the window
and has one response (R52), so a line's responses are as many as its transactions. -/
def programOutput (p : Params) : List HostLine → List Response → List Byte
  | [], _ => []
  | l :: rest, responses =>
    List.append (lineOutput l (responses.take (expandLine p l).length))
      (programOutput p rest (responses.drop (expandLine p l).length))

/-- Chunk k of a message: at most 64 bytes, the last may be shorter (R168). -/
def chunkOf (data : List Byte) (k : Nat) : List Byte := (data.drop (64 * k)).take 64

/-- `process(data, key, nonce, initial_counter)` (R168): `encrypt` and `decrypt` are both this program. -/
def process (data key nonce : List Byte) (initialCounter : Nat) : List HostLine :=
  HostLine.ldkey key :: HostLine.ldnonce nonce :: HostLine.ldctr initialCounter ::
    List.append ((List.range ((data.length + 63) / 64)).map fun k => HostLine.chunk (chunkOf data k))
      [HostLine.cmd .scrub]

/-- The state in which the host has a program still to send (R71; log entry 2). The pc is kept: 0 after reset, as R24 says
of a program's start, and a program sent to a block that has run one already numbers on, which is a DESIGN CHOICE (log entry
15). -/
def State.withProgram (s : State) (lines : List HostLine) : State :=
  s.setPending ((lines.flatMap (expandLine s.params)).map .txn)

/-- The output of a program that the host sends to a block in the state s, when its last transaction has completed (R71);
none if a step gave no next state. -/
def outputFrom (s : State) (lines : List HostLine) : Option (List Byte) :=
  match Host.Core.run core (s.withProgram lines).pending.length (s.withProgram lines) with
  | .next t => some (programOutput s.params lines (t.responses.drop s.responses.length))
  | .fault _ => none
  | .refused _ => none

/-- `encrypt(data, key, nonce, initial_counter)` by a block in the state s: the output of `process` (R168). -/
def encrypt (s : State) (data key nonce : List Byte) (initialCounter : Nat) : Option (List Byte) :=
  outputFrom s (process data key nonce initialCounter)

/-- `decrypt`: "the identical operation" (R168). -/
def decrypt (s : State) (data key nonce : List Byte) (initialCounter : Nat) : Option (List Byte) :=
  outputFrom s (process data key nonce initialCounter)

end Sys2Proof.Machine
end

