-- ==== Sys2Proof/Safety.lean ====
section
/-! DEFINITION. The terms claims are made in: sequences of commands, which registers two states share, the record a
fault leaves, the end of a run and its observation (20_memory.md R71, 60_exceptions.md R191, 70_reset_and_hazards.md
R221), and the states a run can reach. -/

namespace Sys2Proof.Machine

/-- A sequence of commands, each run on what the one before left; it stops at the first answer that is no next
state. -/
def runCommands : List Instr → State → Host.Outcome State Fault Refusal
  | [], s => .next s
  | i :: rest, s =>
    match exec i s with
    | .next t => runCommands rest t
    | .fault r => .fault r
    | .refused r => .refused r

/-- The two states hold the same KEY, NONCE, CTR, LEN and DBUF: the registers the host can write (R56, R57). -/
def SameInputs (s t : State) : Prop :=
  t.key = s.key ∧ t.nonce = s.nonce ∧ t.ctr = s.ctr ∧ t.len = s.len ∧ t.dbuf = s.dbuf

/-- The two states hold the same secret-carrying registers and LEN (R35, R182). -/
def SameSecrets (s t : State) : Prop := SameInputs s t ∧ t.x = s.x ∧ t.snap = s.snap

/-- The two states hold the same fault record (R193). -/
def SameRecord (s t : State) : Prop := t.fault = s.fault ∧ t.fcode = s.fcode ∧ t.finfo = s.finfo

/-- The two states agree on the parameters and on the host's side (R7, R24, R71). -/
def SameSurroundings (s t : State) : Prop :=
  t.params = s.params ∧ t.pending = s.pending ∧ t.pc = s.pc ∧ t.responses = s.responses

/-- What the record says of the first fault: for each code the FINFO that R191 lists, and nothing while FAULT = 0
(R31, R32). Codes 6 to 15 are never produced (R191). -/
structure RecordLegal (s : State) : Prop where
  clear : s.fault = false → s.fcode = 0 ∧ s.finfo = 0
  recorded : s.fault = true →
    (s.fcode = 1 ∧ ∃ r, decode s.finfo = .error r) ∨
    (s.fcode = 2 ∧ ∃ a b c d, decode s.finfo = .ok (.qr a b c d) ∧ indicesDistinct a b c d = false) ∨
    (s.fcode = 3 ∧ (decode s.finfo = .ok .xorks ∨ decode s.finfo = .ok .step)) ∨
    (s.fcode = 4 ∧ s.params.restrictCtr = true ∧ 1 < s.finfo.toNat) ∨
    (s.fcode = 5 ∧ ∃ kind off size, off < windowSize ∧ s.finfo = busInfo kind off size)

/-- Every register of the window, in the order of the map (R60). -/
def allRegs : List Reg :=
  List.flatten
    [[Reg.cmd, Reg.status, Reg.finfo, Reg.len, Reg.ctr], (List.finRange 8).map Reg.key,
     (List.finRange 3).map Reg.nonce, (List.finRange 16).map Reg.dbuf, (List.finRange 16).map Reg.x,
     (List.finRange 16).map Reg.s]

/-- The observation of a run (R71): the responses in order, and the final register values. -/
def observation (s : State) : List Response × List Word := (s.responses, allRegs.map (readReg · s))

/-- A run ends when the last transaction has completed (R71). R71 speaks of transactions alone: that a platform reset still
to come after the last transaction belongs to the run too, so that the run ends after it and with its FAULT = 0, is a
DESIGN CHOICE (log entry 13). -/
def runEnded (s : State) : Bool := s.pending.isEmpty

/-- A run ended without a fault: the premise a claim about a run takes (R71, R221); where a reset came last: log entry
13. -/
def safeEnd (s : State) : Bool := runEnded s && !s.fault

/-- The states of the runs from reset, for every value of the parameters and every list of inputs. -/
inductive Reachable : State → Prop where
  | reset (p : Params) (inputs : List Input) : Reachable ((State.resetWith p).setPending inputs)
  | step {s t : State} : Reachable s → Sys2Proof.Machine.step s = .next t → Reachable t

end Sys2Proof.Machine
end

