-- ==== Sys2Proof/Certificates/Slice0/Obligations.lean ====
section
/-! DEFINITION. The statements for the provers, and the terms they are made in. The terms under Claim are written from
the spec's rules, apart from the model's own functions, so that a statement does not repeat a definition. A premise
`s.fault = false` is the spec's: every command but SCRUB is ignored while STATUS.FAULT = 1 (60_exceptions.md R195),
and `FaultFreezesCommands` says what happens then. -/

namespace Sys2Proof.Machine.Claim

/-- The quarter-round as a function of four words: the four steps of R121, each reading what the step before left. -/
def quarterRound (a b c d : Word) : Word × Word × Word × Word :=
  let a := a + b
  let d := (d ^^^ a).rotateLeft 16
  let c := c + d
  let b := (b ^^^ c).rotateLeft 12
  let a := a + b
  let d := (d ^^^ a).rotateLeft 8
  let c := c + d
  let b := (b ^^^ c).rotateLeft 7
  (a, b, c, d)

/-- Four words of a matrix. -/
def quad (x : Words16) (a b c d : Fin 16) : Word × Word × Word × Word := (x[a], x[b], x[c], x[d])

/-- The quarter-round of the words of `x` at four indices gives the words of `y` there. -/
def QuarterRounds (x y : Words16) (a b c d : Fin 16) : Prop :=
  quad y a b c d = quarterRound x[a] x[b] x[c] x[d]

/-- The matrix INIT builds (R104): the constants (R100), the key words (R101), the counter (R103), the nonce words
(R102). -/
def InitialMatrix (key : KeyWords) (nonce : NonceWords) (ctr : Word) (m : Words16) : Prop :=
  m[0] = 0x61707865 ∧ m[1] = 0x3320646e ∧ m[2] = 0x79622d32 ∧ m[3] = 0x6b206574 ∧
  (∀ i : Fin 8, m[4 + i.val] = key[i]) ∧ m[12] = ctr ∧ ∀ i : Fin 3, m[13 + i.val] = nonce[i]

/-- Byte j of sixteen words, `byte(W[j div 4], j mod 4)` (R10), as a number. -/
def byteNumber (ws : Words16) (j : Fin 64) : Nat := ws[j.val / 4].toNat / 2 ^ (8 * (j.val % 4)) % 256

/-- The first n bytes of a buffer are XORed with those of a matrix, and the rest are kept (R162). -/
def XoredBytes (n : Nat) (x before after : Words16) : Prop :=
  ∀ j : Fin 64, byteNumber after j =
    if j.val < n then byteNumber before j ^^^ byteNumber x j else byteNumber before j

/-- The four quarter-rounds of the column round, as commands (R124). -/
def columnCommands : List Instr := [.qr 0 4 8 12, .qr 1 5 9 13, .qr 2 6 10 14, .qr 3 7 11 15]

/-- The four quarter-rounds of the diagonal round, as commands (R126). -/
def diagonalCommands : List Instr := [.qr 0 5 10 15, .qr 1 6 11 12, .qr 2 7 8 13, .qr 3 4 9 14]

/-- The registers the table of R38 lets each command write; every other part of the state is kept. -/
def WritesOnly (i : Instr) (s t : State) : Prop :=
  match i with
  | .nop => t = s
  | .qr a b c d => t = { s with x := t.x } ∧ ∀ j, j ≠ a → j ≠ b → j ≠ c → j ≠ d → t.x[j] = s.x[j]
  | .init | .colround | .diaground | .dround | .feedfwd => t = { s with x := t.x }
  | .snap => t = { s with snap := t.snap }
  | .block => t = { s with x := t.x, snap := t.snap }
  | .xorks => t = { s with dbuf := t.dbuf }
  | .ctrinc => t = { s with ctr := t.ctr }
  | .step => t = { s with x := t.x, snap := t.snap, dbuf := t.dbuf, ctr := t.ctr }
  | .scrub => t = { s with key := t.key, nonce := t.nonce, ctr := t.ctr, len := t.len, dbuf := t.dbuf,
                           x := t.x, snap := t.snap }

/-- Two states agree on the registers the table of R38 lets each command read. -/
def SameReads (i : Instr) (s t : State) : Prop :=
  match i with
  | .nop | .scrub => True
  | .init => t.key = s.key ∧ t.nonce = s.nonce ∧ t.ctr = s.ctr
  | .qr a b c d => t.x[a] = s.x[a] ∧ t.x[b] = s.x[b] ∧ t.x[c] = s.x[c] ∧ t.x[d] = s.x[d]
  | .colround | .diaground | .dround | .snap | .block => t.x = s.x
  | .feedfwd => t.x = s.x ∧ t.snap = s.snap
  | .xorks => t.len = s.len ∧ t.x = s.x ∧ t.dbuf = s.dbuf
  | .ctrinc => t.ctr = s.ctr
  | .step => t.key = s.key ∧ t.nonce = s.nonce ∧ t.ctr = s.ctr ∧ t.len = s.len ∧ t.dbuf = s.dbuf

/-- Two states agree on the registers the table of R38 lets each command write. -/
def SameWrites (i : Instr) (s t : State) : Prop :=
  match i with
  | .nop => True
  | .qr a b c d => t.x[a] = s.x[a] ∧ t.x[b] = s.x[b] ∧ t.x[c] = s.x[c] ∧ t.x[d] = s.x[d]
  | .init | .colround | .diaground | .dround | .feedfwd => t.x = s.x
  | .snap => t.snap = s.snap
  | .block => t.x = s.x ∧ t.snap = s.snap
  | .xorks => t.dbuf = s.dbuf
  | .ctrinc => t.ctr = s.ctr
  | .step => t.x = s.x ∧ t.snap = s.snap ∧ t.dbuf = s.dbuf ∧ t.ctr = s.ctr
  | .scrub => SameSecrets s t

/-- The next input of a state, and those after it. -/
def NextInput (s : State) (i : Input) (rest : List Input) : Prop := s.pending = i :: rest

/-- The state a transaction answered with `r` leaves, where it changes no register: the inputs after it, the host's pc
(R24) and the responses. -/
def answered (s : State) (rest : List Input) (r : Response) : State :=
  { s with pending := rest, pc := s.pc + 1, responses := s.responses ++ [r] }

/-- The state a fault of code `code` with detail `info` leaves of a state without a fault, and of a faulted one, which
keeps its record (R193). -/
def recorded (s : State) (code : BitVec 4) (info : Word) : State :=
  { s with fault := true, fcode := if s.fault then s.fcode else code, finfo := if s.fault then s.finfo else info }

/-- `busInfo(kind, off, size)` of R53 in numbers: the offset, the size from bit 16, the kind in bit 31. -/
def busDetail (kind : AccessKind) (off size : Nat) : Word :=
  BitVec.ofNat 32 (off + 2 ^ 16 * (size % 16) + match kind with | .read => 0 | .write => 2 ^ 31)

/-- The state a refused access leaves: BUS_ERROR recorded, ERR answered (R53, R59). -/
def refusedAccess (s : State) (rest : List Input) (kind : AccessKind) (off size : Nat) : State :=
  answered (recorded s 5 (busDetail kind off size)) rest .err

/-- A window offset the map of R60 marks reserved. -/
def ReservedOffset (off : Nat) : Prop :=
  (0x014 ≤ off ∧ off < 0x020) ∨ (0x04C ≤ off ∧ off < 0x080) ∨ (0x0C0 ≤ off ∧ off < 0x100) ∨
  (0x180 ≤ off ∧ off < 0x1000)

/-- The offset the map of R60 gives each register. -/
def mapOffset (r : Reg) : Nat :=
  match r with
  | .cmd => 0x000
  | .status => 0x004
  | .finfo => 0x008
  | .len => 0x00C
  | .ctr => 0x010
  | .key i => 0x020 + 4 * i.val
  | .nonce i => 0x040 + 4 * i.val
  | .dbuf i => 0x080 + 4 * i.val
  | .x i => 0x100 + 4 * i.val
  | .s i => 0x140 + 4 * i.val

/-- The value of each register as the list of R55 gives it. -/
def RegisterValue (s : State) (r : Reg) (v : Word) : Prop :=
  match r with
  | .cmd => v = 0
  | .status =>
    v.toNat = s.fault.toNat + 2 ^ 8 * s.fcode.toNat + 2 ^ 16 * s.params.restrictCtr.toNat
  | .finfo => v = s.finfo
  | .len => v = s.len
  | .ctr => v = s.ctr
  | .key i => v = s.key[i]
  | .nonce i => v = s.nonce[i]
  | .dbuf i => v = s.dbuf[i]
  | .x i => v = s.x[i]
  | .s i => v = s.snap[i]

/-- Every register of R210 holds 0. -/
def AllZero (s : State) : Prop :=
  (∀ i : Fin 8, s.key[i] = 0) ∧ (∀ i : Fin 3, s.nonce[i] = 0) ∧ s.ctr = 0 ∧ s.len = 0 ∧
  (∀ i : Fin 16, s.dbuf[i] = 0) ∧ (∀ i : Fin 16, s.x[i] = 0) ∧ ∀ i : Fin 16, s.snap[i] = 0

end Sys2Proof.Machine.Claim

open Sys2Proof Sys2Proof.Machine Sys2Proof.Machine.Claim

/-! ### The word arithmetic (00_scope.md) -/

/-- R9: addition wraps modulo 2^32, xor is bitwise, and the rotations are 32-bit circular left-shifts. -/
def Obligations.WordArithmeticWraps : Prop :=
  (∀ x y : Word, (add32 x y).toNat = (x.toNat + y.toNat) % 2 ^ 32) ∧
  (∀ x y : Word, (xor32 x y).toNat = x.toNat ^^^ y.toNat) ∧
  ∀ (v : Word) (n : Nat), 0 < n → n < 32 →
    (rotl32 v n).toNat = (v.toNat * 2 ^ n + v.toNat / 2 ^ (32 - n)) % 2 ^ 32

/-- R10: the byte and word conversions are little-endian. -/
def Obligations.BytesAreLittleEndian : Prop :=
  (∀ b0 b1 b2 b3 : Byte, (le32 b0 b1 b2 b3).toNat =
    b0.toNat + 2 ^ 8 * b1.toNat + 2 ^ 16 * b2.toNat + 2 ^ 24 * b3.toNat) ∧
  (∀ (w : Word) (k : Fin 4), (byteOf w k).toNat = w.toNat / 2 ^ (8 * k.val) % 2 ^ 8) ∧
  ∀ (b : Vector Byte 4) (k : Fin 4), byteOf (le32 b[0] b[1] b[2] b[3]) k = b[k]

/-! ### Commands and their words (30_encoding.md) -/

/-- R88: the word of each command, the formula of QR and the QR words the table writes out. -/
def Obligations.CommandWordsAreTabled : Prop :=
  encode .nop = 0x00000000 ∧ encode .init = 0x00000001 ∧ encode .colround = 0x00000003 ∧
  encode .diaground = 0x00000004 ∧ encode .dround = 0x00000005 ∧ encode .snap = 0x00000006 ∧
  encode .feedfwd = 0x00000007 ∧ encode .block = 0x00000008 ∧ encode .xorks = 0x00000009 ∧
  encode .ctrinc = 0x0000000A ∧ encode .step = 0x0000000B ∧ encode .scrub = 0x0000000C ∧
  (∀ a b c d : Fin 16, (encode (.qr a b c d)).toNat =
    2 + 2 ^ 8 * a.val + 2 ^ 12 * b.val + 2 ^ 16 * c.val + 2 ^ 20 * d.val) ∧
  encode (.qr 0 4 8 12) = 0x00C84002 ∧ encode (.qr 1 5 9 13) = 0x00D95102 ∧
  encode (.qr 2 6 10 14) = 0x00EA6202 ∧ encode (.qr 3 7 11 15) = 0x00FB7302 ∧
  encode (.qr 0 5 10 15) = 0x00FA5002 ∧ encode (.qr 1 6 11 12) = 0x00CB6102 ∧
  encode (.qr 2 7 8 13) = 0x00D87202 ∧ encode (.qr 3 4 9 14) = 0x00E94302 ∧
  encode (.qr 0 1 2 3) = 0x00321002 ∧ encode (.qr 4 5 6 7) = 0x00765402

/-- Words written out from R80 and R82 decode to the commands they stand for. -/
def Obligations.WrittenWordsDecode : Prop :=
  decode 0b00000000000000000000000000000001 = .ok .init ∧
  decode 0b00000000011101100101010000000010 = .ok (.qr 4 5 6 7) ∧
  decode 0b00000000000000000000000000001000 = .ok .block ∧
  decode 0b00000000000000000000000000001011 = .ok .step ∧
  decode 0b00000000000000000000000000001100 = .ok .scrub

/-- Decoding the encoding of any command, with every operand at every value, gives the command back (R80-R83). -/
def Obligations.DecodeOfEncode : Prop := ∀ i : Instr, decode (encode i) = .ok i

/-- A word that decodes to a command is that command's one encoding: no word is a second spelling (R84, R85). -/
def Obligations.EncodeOfDecode : Prop := ∀ (w : Word) (i : Instr), decode w = .ok i → encode i = w

/-- R83: the decoder and the opcode table's match and mask select the same command, and no two rows overlap. -/
def Obligations.DecoderFollowsOpcodeTable : Prop :=
  (∀ (w : Word) (r : OpcodeRow), r ∈ opcodeTable →
    (r.selects w = true ↔ ∃ i, decode w = .ok i ∧ opcodeRow i = r)) ∧
  (∀ i : Instr, opcodeRow i ∈ opcodeTable) ∧
  opcodeTable.Pairwise fun r q => ∀ w, r.selects w = true → q.selects w = false

/-- R84: which words are illegal, and R83, R191: an illegal word written to CMD while FAULT = 0 is recorded as
ILLEGAL_CMD with the word itself, answered OK, and has no other effect. -/
def Obligations.IllegalWordsFault : Prop :=
  (∀ w : Word, (∃ e, decode w = .error e) ↔
    0x0C < w.toNat % 2 ^ 8 ∨ (w.toNat % 2 ^ 8 ≠ 2 ∧ w.toNat / 2 ^ 8 ≠ 0) ∨
    (w.toNat % 2 ^ 8 = 2 ∧ w.toNat / 2 ^ 24 ≠ 0)) ∧
  ∀ (s : State) (w : Word) (e : IllegalWord) (rest : List Input), s.fault = false → decode w = .error e →
    NextInput s (.txn (.write s.params.pBase 4 w)) rest →
    step s = .next (answered (recorded s 1 w) rest .okWrite)

/-- A step runs the decoded command: where the next input is an aligned 32-bit Write of w to CMD and w decodes to i,
the step is exec of i, after which the transaction is answered OK and the host's pc moves on (R24, R56, R83). The
second part says that withFetchWord puts exactly that input first; that a program is sent so is the model's choice (log
entry 2). -/
def Obligations.StepRunsDecodedCommand : Prop :=
  (∀ (s : State) (w : Word) (i : Instr) (rest : List Input), decode w = .ok i →
    NextInput s (.txn (.write s.params.pBase 4 w)) rest →
    step s =
      match exec i { s with pending := rest } with
      | .next t => .next { t with pc := t.pc + 1, responses := t.responses ++ [.okWrite] }
      | .fault r => .fault r
      | .refused r => .refused r) ∧
  ∀ (s : State) (w : Word),
    NextInput (s.withFetchWord 32 w.toNat) (.txn (.write s.params.pBase 4 w)) s.pending ∧
    { s.withFetchWord 32 w.toNat with pending := s.pending } = s

/-! ### Control (44_control.md) -/

/-- R180: NOP changes nothing, faulted or not. -/
def Obligations.NopHasNoEffect : Prop := ∀ s : State, exec .nop s = .next s

/-- R182: SCRUB zeroes every secret-carrying register and LEN and changes nothing else, whether or not a fault is
recorded. -/
def Obligations.ScrubZeroesSecrets : Prop :=
  ∀ s : State, ∃ t, exec .scrub s = .next t ∧ AllZero t ∧ SameRecord s t ∧ SameSurroundings s t

/-- R182, R184, R35: after a SCRUB nothing tells two states apart that held different secrets. -/
def Obligations.ScrubHidesSecrets : Prop :=
  ∀ (s t : State) (rest : List Input), SameRecord s t → SameSurroundings s t →
    NextInput s (.txn (.write s.params.pBase 4 0x0000000C)) rest →
    step s = step t ∧ ∃ u, step s = .next u

/-! ### The state initializer (40_state_init.md) -/

/-- R104: INIT writes all 16 words of X from the constants, KEY, CTR and NONCE, and nothing else. -/
def Obligations.InitBuildsMatrix : Prop :=
  ∀ s : State, s.fault = false →
    ∃ t, exec .init s = .next t ∧ t = { s with x := t.x } ∧ InitialMatrix s.key s.nonce s.ctr t.x

/-- R106: INIT is idempotent. A second INIT leaves the same state, and an INIT after any commands that do not write KEY,
NONCE or CTR (CTRINC, STEP and SCRUB do, R38) leaves the same X, if none of them faulted (R195). -/
def Obligations.InitIsIdempotent : Prop :=
  ∀ s : State, s.fault = false → ∃ t, exec .init s = .next t ∧ exec .init t = .next t ∧
    ∀ (l : List Instr) (m : State), (∀ i ∈ l, i ≠ .ctrinc ∧ i ≠ .step ∧ i ≠ .scrub) →
      runCommands l t = .next m → m.fault = false → ∃ u, exec .init m = .next u ∧ u.x = t.x

/-! ### The quarter-round engine (41_quarter_round.md) -/

/-- R121, R123: a QR with distinct indices does the four steps on its four words, and no other word and no other
register changes. -/
def Obligations.QrChangesItsFourWords : Prop :=
  ∀ (s : State) (a b c d : Fin 16), s.fault = false → [a, b, c, d].Nodup →
    ∃ t, exec (.qr a b c d) s = .next t ∧ QuarterRounds s.x t.x a b c d ∧
      (∀ j, j ≠ a → j ≠ b → j ≠ c → j ≠ d → t.x[j] = s.x[j]) ∧ t = { s with x := t.x }

/-- R122: a QR with any two equal indices, a and d too, records ALIAS with its own word and changes nothing else. -/
def Obligations.QrAliasFaults : Prop :=
  ∀ (s : State) (a b c d : Fin 16), s.fault = false → ¬ [a, b, c, d].Nodup →
    exec (.qr a b c d) s = .next { s with fault := true, fcode := 2, finfo := encode (.qr a b c d) }

/-- R130: the words after each of the four ARX steps of the source's vector, at any four distinct indices. -/
def Obligations.QuarterRoundVectorSteps : Prop :=
  ∀ (x : Words16) (a b c d : Fin 16), [a, b, c, d].Nodup →
    quad x a b c d = (0x11111111, 0x01020304, 0x9b8d6f43, 0x01234567) →
    let x1 := arx a b d 16 x
    let x2 := arx c d b 12 x1
    let x3 := arx a b d 8 x2
    let x4 := arx c d b 7 x3
    quad x1 a b c d = (0x12131415, 0x01020304, 0x9b8d6f43, 0x51721330) ∧
    quad x2 a b c d = (0x12131415, 0xd8177edf, 0xecff8273, 0x51721330) ∧
    quad x3 a b c d = (0xea2a92f4, 0xd8177edf, 0xecff8273, 0x5881c4bb) ∧
    quad x4 a b c d = (0xea2a92f4, 0xcb1cf8ce, 0x4581472e, 0x5881c4bb)

/-- R124: COLROUND does the quarter-round on each column, and changes nothing but X. -/
def Obligations.ColroundMixesColumns : Prop :=
  ∀ s : State, s.fault = false → ∃ t, exec .colround s = .next t ∧ t = { s with x := t.x } ∧
    QuarterRounds s.x t.x 0 4 8 12 ∧ QuarterRounds s.x t.x 1 5 9 13 ∧
    QuarterRounds s.x t.x 2 6 10 14 ∧ QuarterRounds s.x t.x 3 7 11 15

/-- R126: DIAGROUND does the quarter-round on each diagonal, and changes nothing but X. -/
def Obligations.DiagroundMixesDiagonals : Prop :=
  ∀ s : State, s.fault = false → ∃ t, exec .diaground s = .next t ∧ t = { s with x := t.x } ∧
    QuarterRounds s.x t.x 0 5 10 15 ∧ QuarterRounds s.x t.x 1 6 11 12 ∧
    QuarterRounds s.x t.x 2 7 8 13 ∧ QuarterRounds s.x t.x 3 4 9 14

/-- R128: DROUND is COLROUND and then DIAGROUND, and changes nothing but X. -/
def Obligations.DroundIsColumnThenDiagonal : Prop :=
  ∀ s : State, s.fault = false →
    ∃ m t, exec .colround s = .next m ∧ exec .diaground m = .next t ∧ exec .dround s = .next t ∧
      t = { s with x := t.x }

/-- R125: the quarter-rounds of a round may come in any order, as commands of their own too; the two rounds may not. -/
def Obligations.RoundOrderIsImmaterial : Prop :=
  (∀ (s : State) (l : List Instr), s.fault = false → l.Perm columnCommands →
    runCommands l s = exec .colround s) ∧
  (∀ (s : State) (l : List Instr), s.fault = false → l.Perm diagonalCommands →
    runCommands l s = exec .diaground s) ∧
  ∃ s t u : State, s.fault = false ∧ runCommands [.colround, .diaground] s = .next t ∧
    runCommands [.diaground, .colround] s = .next u ∧ t.x ≠ u.x

/-- R129: QR with distinct indices, COLROUND, DIAGROUND and DROUND are bijections on X. -/
def Obligations.RoundsAreBijections : Prop :=
  ∀ (i : Instr) (s : State) (y : Words16), s.fault = false →
    (i = .colround ∨ i = .diaground ∨ i = .dround ∨
      ∃ a b c d : Fin 16, [a, b, c, d].Nodup ∧ i = .qr a b c d) →
    ∃ x : Words16, exec i { s with x := x } = .next { s with x := y } ∧
      ∀ x' : Words16, exec i { s with x := x' } = .next { s with x := y } → x' = x

/-! ### The block function (42_block.md) -/

/-- R140: SNAP copies X into S and changes nothing else. -/
def Obligations.SnapCopiesMatrix : Prop :=
  ∀ s : State, s.fault = false →
    ∃ t, exec .snap s = .next t ∧ (∀ i : Fin 16, t.snap[i] = s.x[i]) ∧ t = { s with snap := t.snap }

/-- R142: FEEDFWD adds S into X word by word modulo 2^32, with no carry between words, and changes nothing else. -/
def Obligations.FeedfwdAddsSnapshot : Prop :=
  ∀ s : State, s.fault = false →
    ∃ t, exec .feedfwd s = .next t ∧ t = { s with x := t.x } ∧
      ∀ i : Fin 16, t.x[i].toNat = (s.x[i].toNat + s.snap[i].toNat) % 2 ^ 32

/-- R145: BLOCK is SNAP, ten DROUNDs and FEEDFWD; it is the same with each DROUND as COLROUND and DIAGROUND, and with
each of these as its four QRs. -/
def Obligations.BlockIsItsCommandSequence : Prop :=
  ∀ s : State, s.fault = false → ∃ t, exec .block s = .next t ∧
    runCommands (.snap :: List.replicate 10 .dround ++ [.feedfwd]) s = .next t ∧
    runCommands (.snap :: (List.replicate 10 [.colround, .diaground]).flatten ++ [.feedfwd]) s = .next t ∧
    runCommands (.snap :: (List.replicate 10 (columnCommands ++ diagonalCommands)).flatten ++ [.feedfwd]) s =
      .next t

/-- R144: BLOCK takes any X, leaves its input in S, and its result depends on X alone; nothing else changes. -/
def Obligations.BlockDependsOnMatrixOnly : Prop :=
  ∀ s s' : State, s.fault = false → s'.fault = false → s'.x = s.x →
    ∃ t t', exec .block s = .next t ∧ exec .block s' = .next t' ∧ t'.x = t.x ∧
      t = { s with x := t.x, snap := s.x } ∧ t' = { s' with x := t.x, snap := s.x }

/-- R122, R124, R126, R128, R144, R212: the all-zero X is a fixed point of the permutation and of the block
function. -/
def Obligations.ZeroMatrixIsFixed : Prop :=
  ∀ (i : Instr) (s : State), s.fault = false → s.x = Vector.replicate 16 0 →
    (i = .colround ∨ i = .diaground ∨ i = .dround ∨ i = .block ∨
      ∃ a b c d : Fin 16, [a, b, c, d].Nodup ∧ i = .qr a b c d) →
    ∃ t, exec i s = .next t ∧ t.x = Vector.replicate 16 0

/-! ### The keystream unit (43_keystream.md) -/

/-- R162: XORKS with LEN at most 64 XORs the first LEN bytes of DBUF with the serialized X, keeps the other bytes, and
changes nothing else. -/
def Obligations.XorksXorsFirstBytes : Prop :=
  ∀ s : State, s.fault = false → s.len.toNat ≤ 64 →
    ∃ t, exec .xorks s = .next t ∧ t = { s with dbuf := t.dbuf } ∧ XoredBytes s.len.toNat s.x s.dbuf t.dbuf

/-- R162: XORKS twice with the same X restores DBUF. -/
def Obligations.XorksTwiceRestores : Prop :=
  ∀ s : State, s.fault = false → s.len.toNat ≤ 64 → runCommands [.xorks, .xorks] s = .next s

/-- R162, R166: XORKS and STEP with LEN above 64 record BAD_LEN with their own word and change nothing else. -/
def Obligations.LongChunkFaults : Prop :=
  ∀ s : State, s.fault = false → 64 < s.len.toNat →
    exec .xorks s = .next { s with fault := true, fcode := 3, finfo := 0x00000009 } ∧
    exec .step s = .next { s with fault := true, fcode := 3, finfo := 0x0000000B }

/-- R164: CTRINC adds 1 to CTR modulo 2^32, whatever P_RESTRICT_CTR is, and changes nothing else. -/
def Obligations.CtrincWraps : Prop :=
  ∀ s : State, s.fault = false →
    ∃ t, exec .ctrinc s = .next t ∧ t = { s with ctr := t.ctr } ∧
      t.ctr.toNat = (s.ctr.toNat + 1) % 2 ^ 32

/-- R167: STEP equals INIT; BLOCK; XORKS; CTRINC when LEN <= 64 and no fault is recorded. When LEN > 64 STEP faults
before INIT; the sequence faults at XORKS, with X and S as INIT and BLOCK left them and CTR kept. -/
def Obligations.StepIsItsCommandSequence : Prop :=
  (∀ s : State, s.fault = false → s.len.toNat ≤ 64 →
    ∃ t, exec .step s = .next t ∧ runCommands [.init, .block, .xorks, .ctrinc] s = .next t ∧ t.fault = false) ∧
  ∀ s : State, s.fault = false → 64 < s.len.toNat →
    ∃ t u m, exec .step s = .next t ∧ SameSecrets s t ∧ t.fault = true ∧
      runCommands [.init, .block] s = .next m ∧ m.fault = false ∧
      runCommands [.init, .block, .xorks, .ctrinc] s = .next u ∧
      u = { m with fault := true, fcode := 3, finfo := 0x00000009 } ∧ u.ctr = s.ctr

/-- R166: after a STEP, S holds the state INIT builds from the old counter, X its block, the first LEN bytes of DBUF
are XORed with X's, CTR is one more than S[12] modulo 2^32, and nothing else changes. -/
def Obligations.StepProcessesOneChunk : Prop :=
  ∀ s : State, s.fault = false → s.len.toNat ≤ 64 →
    ∃ t b, exec .step s = .next t ∧
      t = { s with x := t.x, snap := t.snap, dbuf := t.dbuf, ctr := t.ctr } ∧
      InitialMatrix s.key s.nonce s.ctr t.snap ∧
      exec .block { s with x := t.snap } = .next b ∧ t.x = b.x ∧
      XoredBytes s.len.toNat t.x s.dbuf t.dbuf ∧
      t.ctr.toNat = (t.snap[12].toNat + 1) % 2 ^ 32

/-- R168, R172: decrypting is the identical operation. A second STEP on a chunk's output, with the counter set back,
restores the chunk. -/
def Obligations.ChunkRoundTrip : Prop :=
  ∀ s : State, s.fault = false → s.len.toNat ≤ 64 →
    ∃ t u, exec .step s = .next t ∧ exec .step { t with ctr := s.ctr } = .next u ∧ u.dbuf = s.dbuf ∧
      u.ctr = t.ctr ∧ u.x = t.x

/-- R172: under the same key, nonce and counter the XOR of two outputs is the XOR of the two inputs, byte by byte. -/
def Obligations.KeystreamIsIndependentOfData : Prop :=
  ∀ s s' : State, s.fault = false → s'.fault = false → s.len.toNat ≤ 64 → s'.key = s.key →
    s'.nonce = s.nonce → s'.ctr = s.ctr → s'.len = s.len →
    ∃ t t', exec .step s = .next t ∧ exec .step s' = .next t' ∧ t'.x = t.x ∧
      ∀ j : Fin 64, byteNumber t.dbuf j ^^^ byteNumber t'.dbuf j =
        byteNumber s.dbuf j ^^^ byteNumber s'.dbuf j

/-- R169, R170: n STEPs from the counter C0 use the counters C0, C0 + 1, ... modulo 2^32, the last of them standing in
S[12], and leave CTR at C0 + n modulo 2^32. -/
def Obligations.StepsAdvanceCounter : Prop :=
  ∀ (n : Nat) (s : State), s.fault = false → s.len.toNat ≤ 64 →
    ∃ t, runCommands (List.replicate n .step) s = .next t ∧ t.fault = false ∧
      t.ctr.toNat = (s.ctr.toNat + n) % 2 ^ 32 ∧
      (0 < n → t.snap[12].toNat = (s.ctr.toNat + (n - 1)) % 2 ^ 32)

/-! ### The host program `process` (43_keystream.md) -/

/-- R172: the laws of the host program, for every message, of blocks without a fault in any states, with any initial
counter the two accept (R171). Encrypting gives as many bytes as the message has, the same bytes whichever block does it;
decrypting them gives the message; and the outputs of two messages of equal length have the XOR of the messages. -/
def Obligations.MessageLawsHold : Prop :=
  ∀ (s s' : State) (data key nonce : List Byte) (c : Nat), s.fault = false → s'.fault = false →
    key.length = 32 → nonce.length = 12 → c < 2 ^ 32 →
    (s.params.restrictCtr = true → c ≤ 1) → (s'.params.restrictCtr = true → c ≤ 1) →
    ∃ out, encrypt s data key nonce c = some out ∧ encrypt s' data key nonce c = some out ∧
      out.length = data.length ∧ decrypt s' out key nonce c = some data ∧
      ∀ data' : List Byte, data'.length = data.length → ∃ out', encrypt s' data' key nonce c = some out' ∧
        List.zipWith (fun a b => a ^^^ b) out out' = List.zipWith (fun a b => a ^^^ b) data data'

/-- R169: a message is its chunks. Its output is that of separate calls, chunk k with the counter C0 + k modulo 2^32, one
after the other. -/
def Obligations.MessageIsItsChunks : Prop :=
  ∀ (s : State) (data key nonce : List Byte) (c : Nat), s.fault = false → s.params.restrictCtr = false →
    key.length = 32 → nonce.length = 12 → c < 2 ^ 32 →
    ∃ outs : List (List Byte), outs.length = (data.length + 63) / 64 ∧
      (∀ (k : Nat) (h : k < outs.length),
        encrypt s ((data.drop (64 * k)).take 64) key nonce ((c + k) % 2 ^ 32) = some outs[k]) ∧
      encrypt s data key nonce c = some outs.flatten

/-! ### What every command reads and writes (10_state.md) -/

/-- R38, R22, R141: a command writes the registers of its row and nothing else, or it records a fault and changes
nothing else; only QR, XORKS and STEP can record one. FaultFreezesCommands says what happens while FAULT = 1. -/
def Obligations.CommandsWriteOnlyTheirRegisters : Prop :=
  ∀ (i : Instr) (s : State), ∃ t, exec i s = .next t ∧
    (WritesOnly i s t ∨
      (s.fault = false ∧ (i = .xorks ∨ i = .step ∨ ∃ a b c d, i = .qr a b c d) ∧
        ∃ code, t = { s with fault := true, fcode := code, finfo := encode i }))

/-- R38: what a command that does not fault writes depends only on the registers of its row, and so does whether it
faults. -/
def Obligations.CommandsReadOnlyTheirRegisters : Prop :=
  ∀ (i : Instr) (s s' : State), s.fault = false → s'.fault = false → SameReads i s s' →
    ∃ t t', exec i s = .next t ∧ exec i s' = .next t' ∧ t'.fault = t.fault ∧
      (t.fault = false → SameWrites i t t')

/-! ### The fault record (60_exceptions.md) -/

/-- R195: while FAULT = 1 a Write of w to CMD has no effect and is answered OK, unless w is exactly 0x0000000C, which
runs SCRUB. -/
def Obligations.FaultFreezesCommands : Prop :=
  (∀ (i : Instr) (s : State), s.fault = true → i ≠ .scrub → exec i s = .next s) ∧
  (∀ (s : State) (w : Word) (rest : List Input), s.fault = true → w ≠ 0x0000000C →
    NextInput s (.txn (.write s.params.pBase 4 w)) rest → step s = .next (answered s rest .okWrite)) ∧
  ∀ (s : State) (rest : List Input), s.fault = true →
    NextInput s (.txn (.write s.params.pBase 4 0x0000000C)) rest →
    ∃ t, exec .scrub { s with pending := rest } = .next t ∧ step s = .next (answered t rest .okWrite)

/-- R193: only the first fault since reset is recorded; no transaction changes the record after it. -/
def Obligations.FirstFaultIsKept : Prop :=
  ∀ (s : State) (x : Transaction) (rest : List Input), s.fault = true → NextInput s (.txn x) rest →
    ∃ t, step s = .next t ∧ SameRecord s t

/-- R194: a transaction that takes a fault changes no register other than STATUS and FINFO. A fault is taken where the
record changes, where the answer is ERR, and by a restricted Write to CTR (R57), which a faulted block answers OK. -/
def Obligations.FaultsArePrecise : Prop :=
  ∀ (s t : State) (x : Transaction) (rest : List Input), NextInput s (.txn x) rest → step s = .next t →
    (t.fault ≠ s.fault ∨ t.responses = s.responses ++ [.err] ∨
      (s.params.restrictCtr = true ∧ ∃ v : Word, 1 < v.toNat ∧ x = .write (s.params.pBase + 0x010) 4 v)) →
    SameSecrets s t ∧ t.params = s.params

/-- R31, R32, R191: every step keeps the fault record legal: nothing recorded while FAULT = 0, a code in 1..5 with the
FINFO its row gives while FAULT = 1. -/
def Obligations.RecordStaysLegal : Prop :=
  ∀ s t : State, RecordLegal s → step s = .next t → RecordLegal t

/-- R210, R31: the record is legal after reset, for every value of the parameters. -/
def Obligations.RecordLegalAtReset : Prop := ∀ p : Params, RecordLegal (State.resetWith p)

/-- R210: after reset every register holds 0, FAULT, FCODE and FINFO are 0 and RESTRICT is the parameter, both in the
state the machine starts from and after a reset between two transactions; and only a reset takes FAULT from 1 to 0. -/
def Obligations.ResetZeroesAndAloneClearsFault : Prop :=
  (∀ p : Params, AllZero (State.resetWith p) ∧ SameRecord (State.resetWith p) State.reset ∧
    (statusWord (State.resetWith p)).toNat = 2 ^ 16 * p.restrictCtr.toNat ∧ State.reset.finfo = 0 ∧
    State.reset.fault = false ∧ State.reset.fcode = 0 ∧ State.reset.params.restrictCtr = false) ∧
  (∀ (s : State) (rest : List Input), NextInput s .reset rest →
    ∃ t, step s = .next t ∧ AllZero t ∧ SameRecord State.reset t ∧ t.params = s.params) ∧
  ∀ s t : State, s.fault = true → step s = .next t → t.fault = false → ∃ rest, NextInput s .reset rest

/-! ### The window (20_memory.md) -/

/-- R60: each register stands at the offset the map gives it and at no other, the offsets are word-aligned, and the
aligned offsets without a register are the reserved ranges. -/
def Obligations.AddressMapIsExact : Prop :=
  (∀ r : Reg, regAt (regOffset r) = some r ∧ regOffset r = mapOffset r ∧ regOffset r % 4 = 0 ∧ regOffset r < 0x180) ∧
  (regAt 0x000 = some .cmd ∧ regAt 0x004 = some .status ∧ regAt 0x008 = some .finfo ∧ regAt 0x00C = some .len ∧
    regAt 0x010 = some .ctr ∧ (∀ i : Fin 8, regAt (0x020 + 4 * i.val) = some (.key i)) ∧
    (∀ i : Fin 3, regAt (0x040 + 4 * i.val) = some (.nonce i)) ∧
    (∀ i : Fin 16, regAt (0x080 + 4 * i.val) = some (.dbuf i)) ∧
    (∀ i : Fin 16, regAt (0x100 + 4 * i.val) = some (.x i)) ∧
    ∀ i : Fin 16, regAt (0x140 + 4 * i.val) = some (.s i)) ∧
  (∀ (off : Nat) (r : Reg), off % 4 = 0 → regAt off = some r → regOffset r = off) ∧
  ∀ off : Nat, off % 4 = 0 → off < 0x1000 → (regAt off = none ↔ ReservedOffset off)

/-- R55, R62: an aligned 32-bit Read of any register returns its current value, faulted or not, and changes no
register. -/
def Obligations.ReadReturnsRegister : Prop :=
  ∀ (s : State) (r : Reg) (rest : List Input),
    NextInput s (.txn (.read (s.params.pBase + regOffset r) 4)) rest →
    ∃ v, RegisterValue s r v ∧ step s = .next (answered s rest (.okRead v))

/-- R56, R59: an aligned 32-bit Write to LEN, KEY[i], NONCE[i] or DBUF[i] replaces that word and no other, faulted or
not, and is answered OK. -/
def Obligations.WriteReplacesWord : Prop :=
  ∀ (s : State) (v : Word) (rest : List Input),
    (NextInput s (.txn (.write (s.params.pBase + 0x00C) 4 v)) rest →
      step s = .next (answered { s with len := v } rest .okWrite)) ∧
    (∀ i : Fin 8, NextInput s (.txn (.write (s.params.pBase + (0x020 + 4 * i.val)) 4 v)) rest →
      step s = .next (answered { s with key := s.key.set i v } rest .okWrite)) ∧
    (∀ i : Fin 3, NextInput s (.txn (.write (s.params.pBase + (0x040 + 4 * i.val)) 4 v)) rest →
      step s = .next (answered { s with nonce := s.nonce.set i v } rest .okWrite)) ∧
    ∀ i : Fin 16, NextInput s (.txn (.write (s.params.pBase + (0x080 + 4 * i.val)) 4 v)) rest →
      step s = .next (answered { s with dbuf := s.dbuf.set i v } rest .okWrite)

/-- R57: a Write of v to CTR stores v; with P_RESTRICT_CTR true and v > 1 it records BAD_COUNTER with v instead and
leaves CTR. Either way it is answered OK. -/
def Obligations.WriteToCounter : Prop :=
  ∀ (s : State) (v : Word) (rest : List Input),
    NextInput s (.txn (.write (s.params.pBase + 0x010) 4 v)) rest →
    (s.params.restrictCtr = true ∧ 1 < v.toNat →
      step s = .next (answered (recorded s 4 v) rest .okWrite)) ∧
    (¬ (s.params.restrictCtr = true ∧ 1 < v.toNat) →
      step s = .next (answered { s with ctr := v } rest .okWrite))

/-- R58: an aligned 32-bit Write to STATUS, FINFO, X[i] or S[i] is refused. -/
def Obligations.ReadOnlyRegistersRefuseWrites : Prop :=
  ∀ (s : State) (off : Nat) (v : Word) (rest : List Input),
    off = 0x004 ∨ off = 0x008 ∨ (∃ i : Fin 16, off = 0x100 + 4 * i.val) ∨
      (∃ i : Fin 16, off = 0x140 + 4 * i.val) →
    NextInput s (.txn (.write (s.params.pBase + off) 4 v)) rest →
    step s = .next (refusedAccess s rest .write off 4)

/-- R54: an aligned 32-bit access at a reserved offset is refused, a Read as well as a Write. -/
def Obligations.ReservedOffsetsRefuse : Prop :=
  ∀ (s : State) (off : Nat) (v : Word) (rest : List Input), off % 4 = 0 → ReservedOffset off →
    (NextInput s (.txn (.read (s.params.pBase + off) 4)) rest →
      step s = .next (refusedAccess s rest .read off 4)) ∧
    (NextInput s (.txn (.write (s.params.pBase + off) 4 v)) rest →
      step s = .next (refusedAccess s rest .write off 4))

/-- R53: an access in the window whose size is not 4 or whose offset is not word-aligned is refused and reaches no
register. -/
def Obligations.OddAccessesRefuse : Prop :=
  ∀ (s : State) (off size : Nat) (v : Word) (rest : List Input), off < 0x1000 → size ≠ 4 ∨ off % 4 ≠ 0 →
    (NextInput s (.txn (.read (s.params.pBase + off) size)) rest →
      step s = .next (refusedAccess s rest .read off size)) ∧
    (NextInput s (.txn (.write (s.params.pBase + off) size v)) rest →
      step s = .next (refusedAccess s rest .write off size))

/-- R61: the block neither sees nor answers a transaction to an address outside its window. -/
def Obligations.OutsideWindowIsNotSeen : Prop :=
  ∀ (s : State) (addr size : Nat) (v : Word) (rest : List Input) (x : Transaction),
    addr < s.params.pBase ∨ s.params.pBase + 0x1000 ≤ addr →
    x = .read addr size ∨ x = .write addr size v → NextInput s (.txn x) rest →
    ∃ t, step s = .next t ∧ SameSecrets s t ∧ SameRecord s t ∧ t.params = s.params ∧ t.responses = s.responses

/-- R50, R51, R160: the bytes of the key, the nonce, the data and the keystream stand in the window in order, in
little-endian lanes. -/
def Obligations.WindowBytesInOrder : Prop :=
  ∀ s : State,
    (∀ j : Fin 32, windowByte (0x020 + j.val) s = some (keyByte s.key j)) ∧
    (∀ j : Fin 12, windowByte (0x040 + j.val) s = some (nonceByte s.nonce j)) ∧
    (∀ j : Fin 64, windowByte (0x080 + j.val) s = some (dbufByte s.dbuf j)) ∧
    ∀ j : Fin 64, windowByte (0x100 + j.val) s = some (keystreamByte s.x j)

/-- R65, R62: a Read returns the value left by the latest Write: written and read back, every register the host can
write gives the value written. -/
def Obligations.ReadReturnsLatestWrite : Prop :=
  ∀ (s : State) (r : Reg) (v : Word) (rest : List Input),
    (r = .len ∨ (∃ i, r = .key i) ∨ (∃ i, r = .nonce i) ∨ (∃ i, r = .dbuf i) ∨
      (r = .ctr ∧ (s.params.restrictCtr = false ∨ v.toNat ≤ 1))) →
    s.pending = .txn (.write (s.params.pBase + regOffset r) 4 v) ::
      .txn (.read (s.params.pBase + regOffset r) 4) :: rest →
    ∃ t, Host.Core.run core 2 s = .next t ∧ t.responses = s.responses ++ [.okWrite, .okRead v] ∧
      t.pending = rest

/-- R22, R23, R58, R62: no transaction but a Write to CMD changes X or S. -/
def Obligations.OnlyCommandsReachMatrix : Prop :=
  ∀ (s : State) (x : Transaction) (rest : List Input), NextInput s (.txn x) rest →
    (∀ w, x ≠ .write s.params.pBase 4 w) → ∃ t, step s = .next t ∧ t.x = s.x ∧ t.snap = s.snap

/-! ### Every step (10_state.md, 60_exceptions.md, 70_reset_and_hazards.md) -/

/-- R24, R52: a transaction in the window moves the host's pc on by 1 and is answered once: a Read by OK(v) or ERR, a
Write by OK or ERR. -/
def Obligations.EachTransactionIsAnswered : Prop :=
  ∀ (s : State) (addr size : Nat) (v : Word) (rest : List Input),
    s.params.pBase ≤ addr → addr < s.params.pBase + 0x1000 →
    (NextInput s (.txn (.read addr size)) rest →
      ∃ t r, step s = .next t ∧ t.pending = rest ∧ t.pc = s.pc + 1 ∧ t.responses = s.responses ++ [r] ∧
        (r = .err ∨ ∃ d, r = .okRead d)) ∧
    (NextInput s (.txn (.write addr size v)) rest →
      ∃ t r, step s = .next t ∧ t.pending = rest ∧ t.pc = s.pc + 1 ∧ t.responses = s.responses ++ [r] ∧
        (r = .err ∨ r = .okWrite))

/-- R222, R71: every step ends, and a run of n inputs ends after n steps; after it the block holds its state (R205; that
a step without an input is such a hold is the model's reading, log entry 3). -/
def Obligations.RunsEndAfterTheirInputs : Prop :=
  ∀ (s : State) (k : Nat), ∃ t, Host.Core.run core s.pending.length s = .next t ∧ t.pending = [] ∧
    Host.Core.run core (s.pending.length + k) s = .next t

/-- R34, R31: no step changes a parameter, and STATUS.RESTRICT shows P_RESTRICT_CTR in every state. -/
def Obligations.ParametersAreFixed : Prop :=
  (∀ s : State, ∃ t, step s = .next t ∧ t.params = s.params) ∧
  ∀ s : State, (statusWord s).getLsbD 16 = s.params.restrictCtr
end

