-- ==== Sys2Proof/Laws/Bytes.lean ====
section
/-! SUPPORT. The laws of the word arithmetic and of the little-endian views: what a byte written is read back as, that
the other bytes stay, and that the key and nonce decode give the words the registers hold. -/

namespace Sys2Proof.Machine

/-- The rotation of R9 is the library's. -/
theorem rotl32_eq_rotateLeft (v : Word) {n : Nat} (h : n < 32) : rotl32 v n = v.rotateLeft n := by
  simp [rotl32, BitVec.rotateLeft, BitVec.rotateLeftAux, Nat.mod_eq_of_lt h]

theorem byteMask_getElem_fin : ∀ j : Fin 32, byteMask[j] = decide (j.val < 8) := by decide

theorem byteMask_getElem (i : Nat) (h : i < 32) : byteMask[i] = decide (i < 8) := byteMask_getElem_fin ⟨i, h⟩

/-- The byte written is the byte read, and the other bytes of the word stay (R29). -/
theorem byteOf_replaceByte (w : Word) (v : Byte) {k m : Nat} (hk : k < 4) (hm : m < 4) :
    byteOf (replaceByte w k v) m = if m = k then v else byteOf w m := by
  apply BitVec.eq_of_getLsbD_eq
  intro i hi
  have h32 : 8 * m + i < 32 := by omega
  by_cases h : m = k
  · subst h
    simp [byteOf, replaceByte, byteMask_getElem, h32, hi]
  · rcases Nat.lt_or_gt_of_ne h with h' | h'
    · have h1 : 8 * m + i < 8 * k := by omega
      simp [byteOf, replaceByte, h, h32, h1]
    · have h1 : ¬ 8 * m + i < 8 * k := by omega
      have h2 : 8 ≤ 8 * m + i - 8 * k := by omega
      simp [byteOf, replaceByte, byteMask_getElem, h, h32, h1, BitVec.getLsbD_of_ge _ _ h2,
        show ¬ 8 * m + i - 8 * k < 8 by omega]

/-- The little-endian decode of a word's own four bytes is the word (R10). -/
theorem le32_byteOf (w : Word) : le32 (byteOf w 0) (byteOf w 1) (byteOf w 2) (byteOf w 3) = w := by
  apply BitVec.eq_of_getLsbD_eq
  intro i hi
  rcases Nat.lt_or_ge i 8 with h | h
  · simp [le32, byteOf, h, hi, show i < 16 by omega, show i < 24 by omega]
  rcases Nat.lt_or_ge i 16 with h2 | h2
  · simp [le32, byteOf, hi, show ¬ i < 8 by omega, h2, show i < 24 by omega, show i - 8 < 8 by omega,
      show 8 + (i - 8) = i by omega]
  rcases Nat.lt_or_ge i 24 with h3 | h3
  · simp [le32, byteOf, hi, show ¬ i < 8 by omega, show ¬ i < 16 by omega, h3, show i - 16 < 8 by omega,
      show 16 + (i - 16) = i by omega, show ¬ i - 8 < 8 by omega]
  · simp [le32, byteOf, hi, show ¬ i < 8 by omega, show ¬ i < 16 by omega, show ¬ i < 24 by omega,
      show i - 24 < 8 by omega, show 24 + (i - 24) = i by omega, show ¬ i - 8 < 8 by omega,
      show ¬ i - 16 < 8 by omega]

/-- The key decode of R101 gives the words of KEY (R25). -/
theorem keyword_eq (key : KeyWords) (i : Fin 8) : keyword key i = key[i] := by
  have h0 : 4 * i.val / 4 = i := by omega
  have h1 : (4 * i.val + 1) / 4 = i := by omega
  have h2 : (4 * i.val + 2) / 4 = i := by omega
  have h3 : (4 * i.val + 3) / 4 = i := by omega
  simp [keyword, keyByte, leByte, h0, h1, h2, h3, le32_byteOf]

/-- The nonce decode of R102 gives the words of NONCE (R26). -/
theorem nonceword_eq (nonce : NonceWords) (i : Fin 3) : nonceword nonce i = nonce[i] := by
  have h0 : 4 * i.val / 4 = i := by omega
  have h1 : (4 * i.val + 1) / 4 = i := by omega
  have h2 : (4 * i.val + 2) / 4 = i := by omega
  have h3 : (4 * i.val + 3) / 4 = i := by omega
  simp [nonceword, nonceByte, leByte, h0, h1, h2, h3, le32_byteOf]

/-- Writing one byte of a register array changes that byte of its view and no other (R29). -/
theorem leByte_setLeByte {n : Nat} (ws : Vector Word n) (j m : Fin (4 * n)) (v : Byte) :
    leByte (setLeByte ws j v) m = if m = j then v else leByte ws m := by
  by_cases hw : j.val / 4 = m.val / 4
  · have hset : (setLeByte ws j v)[m.val / 4]'(by have := m.isLt; omega) =
        replaceByte (ws[m.val / 4]'(by have := m.isLt; omega)) (j.val % 4) v := by
      simp [setLeByte, hw]
    rw [leByte, hset, byteOf_replaceByte _ _ (by omega) (by omega)]
    by_cases h : m = j
    · simp [h]
    · have hne : m.val ≠ j.val := fun e => h (Fin.ext e)
      have h' : ¬ m.val % 4 = j.val % 4 := by omega
      simp [h, h', leByte]
  · have hne : m ≠ j := fun e => hw (by rw [e])
    simp [leByte, setLeByte, hne, hw]

/-- What the loop of XORKS does to each byte of DBUF, in one line (R162). -/
theorem dbufByte_xorBytes (x dbuf : Words16) (n : Nat) (h : n ≤ 64) (j : Fin 64) :
    dbufByte (xorBytes x n h dbuf) j =
      if j.val < n then dbufByte dbuf j ^^^ keystreamByte x j else dbufByte dbuf j := by
  induction n with
  | zero => simp [xorBytes]
  | succ n ih =>
    have e := leByte_setLeByte (n := 16) (xorBytes x n (by omega) dbuf) ⟨n, by omega⟩ j
      (dbufByte (xorBytes x n (by omega) dbuf) ⟨n, by omega⟩ ^^^ keystreamByte x ⟨n, by omega⟩)
    have hstep : dbufByte (xorBytes x (n + 1) h dbuf) j =
        if j = ⟨n, by omega⟩ then
          dbufByte (xorBytes x n (by omega) dbuf) ⟨n, by omega⟩ ^^^ keystreamByte x ⟨n, by omega⟩
        else dbufByte (xorBytes x n (by omega) dbuf) j := e
    rw [hstep]
    by_cases hj : j.val = n
    · have hje : j = ⟨n, by omega⟩ := Fin.ext hj
      have hk := ih (by omega)
      rw [if_neg (by omega)] at hk
      rw [if_pos hje, if_pos (by omega), ← hje, hk]
    · have hje : j ≠ ⟨n, by omega⟩ := fun c => hj (by rw [c])
      rw [if_neg hje, ih (by omega)]
      by_cases hlt : j.val < n
      · rw [if_pos hlt, if_pos (by omega)]
      · rw [if_neg hlt, if_neg (by omega)]

/-- Two register arrays with the same bytes are the same. -/
theorem words_ext_bytes {n : Nat} (u v : Vector Word n) (h : ∀ j : Fin (4 * n), leByte u j = leByte v j) :
    u = v := by
  apply Vector.ext
  intro i hi
  have h0 := h ⟨4 * i, by omega⟩
  have h1 := h ⟨4 * i + 1, by omega⟩
  have h2 := h ⟨4 * i + 2, by omega⟩
  have h3 := h ⟨4 * i + 3, by omega⟩
  have e0 : 4 * i / 4 = i := by omega
  have e1 : (4 * i + 1) / 4 = i := by omega
  have e2 : (4 * i + 2) / 4 = i := by omega
  have e3 : (4 * i + 3) / 4 = i := by omega
  simp [leByte, e0, e1, e2, e3] at h0 h1 h2 h3
  rw [← le32_byteOf u[i], ← le32_byteOf v[i], h0, h1, h2, h3]

end Sys2Proof.Machine
end

