-- ==== Sys2Proof/Laws/State.lean ====
section
/-! SUPPORT. One lemma per field per update of State, true by rfl, so that no later proof unfolds a record update. -/

namespace Sys2Proof.Machine

variable (s : State)

@[simp] theorem State.setX_x (v : Words16) : (s.setX v).x = v := rfl
@[simp] theorem State.setX_snap (v : Words16) : (s.setX v).snap = s.snap := rfl
@[simp] theorem State.setX_key (v : Words16) : (s.setX v).key = s.key := rfl
@[simp] theorem State.setX_nonce (v : Words16) : (s.setX v).nonce = s.nonce := rfl
@[simp] theorem State.setX_ctr (v : Words16) : (s.setX v).ctr = s.ctr := rfl
@[simp] theorem State.setX_len (v : Words16) : (s.setX v).len = s.len := rfl
@[simp] theorem State.setX_dbuf (v : Words16) : (s.setX v).dbuf = s.dbuf := rfl
@[simp] theorem State.setX_fault (v : Words16) : (s.setX v).fault = s.fault := rfl
@[simp] theorem State.setX_fcode (v : Words16) : (s.setX v).fcode = s.fcode := rfl
@[simp] theorem State.setX_finfo (v : Words16) : (s.setX v).finfo = s.finfo := rfl
@[simp] theorem State.setX_params (v : Words16) : (s.setX v).params = s.params := rfl
@[simp] theorem State.setX_pending (v : Words16) : (s.setX v).pending = s.pending := rfl
@[simp] theorem State.setX_pc (v : Words16) : (s.setX v).pc = s.pc := rfl
@[simp] theorem State.setX_responses (v : Words16) : (s.setX v).responses = s.responses := rfl

@[simp] theorem State.setSnap_x (v : Words16) : (s.setSnap v).x = s.x := rfl
@[simp] theorem State.setSnap_snap (v : Words16) : (s.setSnap v).snap = v := rfl
@[simp] theorem State.setSnap_key (v : Words16) : (s.setSnap v).key = s.key := rfl
@[simp] theorem State.setSnap_nonce (v : Words16) : (s.setSnap v).nonce = s.nonce := rfl
@[simp] theorem State.setSnap_ctr (v : Words16) : (s.setSnap v).ctr = s.ctr := rfl
@[simp] theorem State.setSnap_len (v : Words16) : (s.setSnap v).len = s.len := rfl
@[simp] theorem State.setSnap_dbuf (v : Words16) : (s.setSnap v).dbuf = s.dbuf := rfl
@[simp] theorem State.setSnap_fault (v : Words16) : (s.setSnap v).fault = s.fault := rfl
@[simp] theorem State.setSnap_fcode (v : Words16) : (s.setSnap v).fcode = s.fcode := rfl
@[simp] theorem State.setSnap_finfo (v : Words16) : (s.setSnap v).finfo = s.finfo := rfl
@[simp] theorem State.setSnap_params (v : Words16) : (s.setSnap v).params = s.params := rfl
@[simp] theorem State.setSnap_pending (v : Words16) : (s.setSnap v).pending = s.pending := rfl
@[simp] theorem State.setSnap_pc (v : Words16) : (s.setSnap v).pc = s.pc := rfl
@[simp] theorem State.setSnap_responses (v : Words16) : (s.setSnap v).responses = s.responses := rfl

@[simp] theorem State.setKey_x (v : KeyWords) : (s.setKey v).x = s.x := rfl
@[simp] theorem State.setKey_snap (v : KeyWords) : (s.setKey v).snap = s.snap := rfl
@[simp] theorem State.setKey_key (v : KeyWords) : (s.setKey v).key = v := rfl
@[simp] theorem State.setKey_nonce (v : KeyWords) : (s.setKey v).nonce = s.nonce := rfl
@[simp] theorem State.setKey_ctr (v : KeyWords) : (s.setKey v).ctr = s.ctr := rfl
@[simp] theorem State.setKey_len (v : KeyWords) : (s.setKey v).len = s.len := rfl
@[simp] theorem State.setKey_dbuf (v : KeyWords) : (s.setKey v).dbuf = s.dbuf := rfl
@[simp] theorem State.setKey_fault (v : KeyWords) : (s.setKey v).fault = s.fault := rfl
@[simp] theorem State.setKey_fcode (v : KeyWords) : (s.setKey v).fcode = s.fcode := rfl
@[simp] theorem State.setKey_finfo (v : KeyWords) : (s.setKey v).finfo = s.finfo := rfl
@[simp] theorem State.setKey_params (v : KeyWords) : (s.setKey v).params = s.params := rfl
@[simp] theorem State.setKey_pending (v : KeyWords) : (s.setKey v).pending = s.pending := rfl
@[simp] theorem State.setKey_pc (v : KeyWords) : (s.setKey v).pc = s.pc := rfl
@[simp] theorem State.setKey_responses (v : KeyWords) : (s.setKey v).responses = s.responses := rfl

@[simp] theorem State.setNonce_x (v : NonceWords) : (s.setNonce v).x = s.x := rfl
@[simp] theorem State.setNonce_snap (v : NonceWords) : (s.setNonce v).snap = s.snap := rfl
@[simp] theorem State.setNonce_key (v : NonceWords) : (s.setNonce v).key = s.key := rfl
@[simp] theorem State.setNonce_nonce (v : NonceWords) : (s.setNonce v).nonce = v := rfl
@[simp] theorem State.setNonce_ctr (v : NonceWords) : (s.setNonce v).ctr = s.ctr := rfl
@[simp] theorem State.setNonce_len (v : NonceWords) : (s.setNonce v).len = s.len := rfl
@[simp] theorem State.setNonce_dbuf (v : NonceWords) : (s.setNonce v).dbuf = s.dbuf := rfl
@[simp] theorem State.setNonce_fault (v : NonceWords) : (s.setNonce v).fault = s.fault := rfl
@[simp] theorem State.setNonce_fcode (v : NonceWords) : (s.setNonce v).fcode = s.fcode := rfl
@[simp] theorem State.setNonce_finfo (v : NonceWords) : (s.setNonce v).finfo = s.finfo := rfl
@[simp] theorem State.setNonce_params (v : NonceWords) : (s.setNonce v).params = s.params := rfl
@[simp] theorem State.setNonce_pending (v : NonceWords) : (s.setNonce v).pending = s.pending := rfl
@[simp] theorem State.setNonce_pc (v : NonceWords) : (s.setNonce v).pc = s.pc := rfl
@[simp] theorem State.setNonce_responses (v : NonceWords) : (s.setNonce v).responses = s.responses := rfl

@[simp] theorem State.setCtr_x (v : Word) : (s.setCtr v).x = s.x := rfl
@[simp] theorem State.setCtr_snap (v : Word) : (s.setCtr v).snap = s.snap := rfl
@[simp] theorem State.setCtr_key (v : Word) : (s.setCtr v).key = s.key := rfl
@[simp] theorem State.setCtr_nonce (v : Word) : (s.setCtr v).nonce = s.nonce := rfl
@[simp] theorem State.setCtr_ctr (v : Word) : (s.setCtr v).ctr = v := rfl
@[simp] theorem State.setCtr_len (v : Word) : (s.setCtr v).len = s.len := rfl
@[simp] theorem State.setCtr_dbuf (v : Word) : (s.setCtr v).dbuf = s.dbuf := rfl
@[simp] theorem State.setCtr_fault (v : Word) : (s.setCtr v).fault = s.fault := rfl
@[simp] theorem State.setCtr_fcode (v : Word) : (s.setCtr v).fcode = s.fcode := rfl
@[simp] theorem State.setCtr_finfo (v : Word) : (s.setCtr v).finfo = s.finfo := rfl
@[simp] theorem State.setCtr_params (v : Word) : (s.setCtr v).params = s.params := rfl
@[simp] theorem State.setCtr_pending (v : Word) : (s.setCtr v).pending = s.pending := rfl
@[simp] theorem State.setCtr_pc (v : Word) : (s.setCtr v).pc = s.pc := rfl
@[simp] theorem State.setCtr_responses (v : Word) : (s.setCtr v).responses = s.responses := rfl

@[simp] theorem State.setLen_x (v : Word) : (s.setLen v).x = s.x := rfl
@[simp] theorem State.setLen_snap (v : Word) : (s.setLen v).snap = s.snap := rfl
@[simp] theorem State.setLen_key (v : Word) : (s.setLen v).key = s.key := rfl
@[simp] theorem State.setLen_nonce (v : Word) : (s.setLen v).nonce = s.nonce := rfl
@[simp] theorem State.setLen_ctr (v : Word) : (s.setLen v).ctr = s.ctr := rfl
@[simp] theorem State.setLen_len (v : Word) : (s.setLen v).len = v := rfl
@[simp] theorem State.setLen_dbuf (v : Word) : (s.setLen v).dbuf = s.dbuf := rfl
@[simp] theorem State.setLen_fault (v : Word) : (s.setLen v).fault = s.fault := rfl
@[simp] theorem State.setLen_fcode (v : Word) : (s.setLen v).fcode = s.fcode := rfl
@[simp] theorem State.setLen_finfo (v : Word) : (s.setLen v).finfo = s.finfo := rfl
@[simp] theorem State.setLen_params (v : Word) : (s.setLen v).params = s.params := rfl
@[simp] theorem State.setLen_pending (v : Word) : (s.setLen v).pending = s.pending := rfl
@[simp] theorem State.setLen_pc (v : Word) : (s.setLen v).pc = s.pc := rfl
@[simp] theorem State.setLen_responses (v : Word) : (s.setLen v).responses = s.responses := rfl

@[simp] theorem State.setDbuf_x (v : Words16) : (s.setDbuf v).x = s.x := rfl
@[simp] theorem State.setDbuf_snap (v : Words16) : (s.setDbuf v).snap = s.snap := rfl
@[simp] theorem State.setDbuf_key (v : Words16) : (s.setDbuf v).key = s.key := rfl
@[simp] theorem State.setDbuf_nonce (v : Words16) : (s.setDbuf v).nonce = s.nonce := rfl
@[simp] theorem State.setDbuf_ctr (v : Words16) : (s.setDbuf v).ctr = s.ctr := rfl
@[simp] theorem State.setDbuf_len (v : Words16) : (s.setDbuf v).len = s.len := rfl
@[simp] theorem State.setDbuf_dbuf (v : Words16) : (s.setDbuf v).dbuf = v := rfl
@[simp] theorem State.setDbuf_fault (v : Words16) : (s.setDbuf v).fault = s.fault := rfl
@[simp] theorem State.setDbuf_fcode (v : Words16) : (s.setDbuf v).fcode = s.fcode := rfl
@[simp] theorem State.setDbuf_finfo (v : Words16) : (s.setDbuf v).finfo = s.finfo := rfl
@[simp] theorem State.setDbuf_params (v : Words16) : (s.setDbuf v).params = s.params := rfl
@[simp] theorem State.setDbuf_pending (v : Words16) : (s.setDbuf v).pending = s.pending := rfl
@[simp] theorem State.setDbuf_pc (v : Words16) : (s.setDbuf v).pc = s.pc := rfl
@[simp] theorem State.setDbuf_responses (v : Words16) : (s.setDbuf v).responses = s.responses := rfl

@[simp] theorem State.setRecord_x (c : BitVec 4) (i : Word) : (s.setRecord c i).x = s.x := rfl
@[simp] theorem State.setRecord_snap (c : BitVec 4) (i : Word) : (s.setRecord c i).snap = s.snap := rfl
@[simp] theorem State.setRecord_key (c : BitVec 4) (i : Word) : (s.setRecord c i).key = s.key := rfl
@[simp] theorem State.setRecord_nonce (c : BitVec 4) (i : Word) : (s.setRecord c i).nonce = s.nonce := rfl
@[simp] theorem State.setRecord_ctr (c : BitVec 4) (i : Word) : (s.setRecord c i).ctr = s.ctr := rfl
@[simp] theorem State.setRecord_len (c : BitVec 4) (i : Word) : (s.setRecord c i).len = s.len := rfl
@[simp] theorem State.setRecord_dbuf (c : BitVec 4) (i : Word) : (s.setRecord c i).dbuf = s.dbuf := rfl
@[simp] theorem State.setRecord_fault (c : BitVec 4) (i : Word) : (s.setRecord c i).fault = true := rfl
@[simp] theorem State.setRecord_fcode (c : BitVec 4) (i : Word) : (s.setRecord c i).fcode = c := rfl
@[simp] theorem State.setRecord_finfo (c : BitVec 4) (i : Word) : (s.setRecord c i).finfo = i := rfl
@[simp] theorem State.setRecord_params (c : BitVec 4) (i : Word) : (s.setRecord c i).params = s.params := rfl
@[simp] theorem State.setRecord_pending (c : BitVec 4) (i : Word) : (s.setRecord c i).pending = s.pending := rfl
@[simp] theorem State.setRecord_pc (c : BitVec 4) (i : Word) : (s.setRecord c i).pc = s.pc := rfl
@[simp] theorem State.setRecord_responses (c : BitVec 4) (i : Word) : (s.setRecord c i).responses = s.responses := rfl

@[simp] theorem State.setPending_x (l : List Input) : (s.setPending l).x = s.x := rfl
@[simp] theorem State.setPending_snap (l : List Input) : (s.setPending l).snap = s.snap := rfl
@[simp] theorem State.setPending_key (l : List Input) : (s.setPending l).key = s.key := rfl
@[simp] theorem State.setPending_nonce (l : List Input) : (s.setPending l).nonce = s.nonce := rfl
@[simp] theorem State.setPending_ctr (l : List Input) : (s.setPending l).ctr = s.ctr := rfl
@[simp] theorem State.setPending_len (l : List Input) : (s.setPending l).len = s.len := rfl
@[simp] theorem State.setPending_dbuf (l : List Input) : (s.setPending l).dbuf = s.dbuf := rfl
@[simp] theorem State.setPending_fault (l : List Input) : (s.setPending l).fault = s.fault := rfl
@[simp] theorem State.setPending_fcode (l : List Input) : (s.setPending l).fcode = s.fcode := rfl
@[simp] theorem State.setPending_finfo (l : List Input) : (s.setPending l).finfo = s.finfo := rfl
@[simp] theorem State.setPending_params (l : List Input) : (s.setPending l).params = s.params := rfl
@[simp] theorem State.setPending_pending (l : List Input) : (s.setPending l).pending = l := rfl
@[simp] theorem State.setPending_pc (l : List Input) : (s.setPending l).pc = s.pc := rfl
@[simp] theorem State.setPending_responses (l : List Input) : (s.setPending l).responses = s.responses := rfl

@[simp] theorem State.complete_x (r : Response) : (s.complete r).x = s.x := rfl
@[simp] theorem State.complete_snap (r : Response) : (s.complete r).snap = s.snap := rfl
@[simp] theorem State.complete_key (r : Response) : (s.complete r).key = s.key := rfl
@[simp] theorem State.complete_nonce (r : Response) : (s.complete r).nonce = s.nonce := rfl
@[simp] theorem State.complete_ctr (r : Response) : (s.complete r).ctr = s.ctr := rfl
@[simp] theorem State.complete_len (r : Response) : (s.complete r).len = s.len := rfl
@[simp] theorem State.complete_dbuf (r : Response) : (s.complete r).dbuf = s.dbuf := rfl
@[simp] theorem State.complete_fault (r : Response) : (s.complete r).fault = s.fault := rfl
@[simp] theorem State.complete_fcode (r : Response) : (s.complete r).fcode = s.fcode := rfl
@[simp] theorem State.complete_finfo (r : Response) : (s.complete r).finfo = s.finfo := rfl
@[simp] theorem State.complete_params (r : Response) : (s.complete r).params = s.params := rfl
@[simp] theorem State.complete_pending (r : Response) : (s.complete r).pending = s.pending := rfl
@[simp] theorem State.complete_pc (r : Response) : (s.complete r).pc = s.pc + 1 := rfl
@[simp] theorem State.complete_responses (r : Response) : (s.complete r).responses = s.responses ++ [r] := rfl

@[simp] theorem State.passBy_x : (s.passBy).x = s.x := rfl
@[simp] theorem State.passBy_snap : (s.passBy).snap = s.snap := rfl
@[simp] theorem State.passBy_key : (s.passBy).key = s.key := rfl
@[simp] theorem State.passBy_nonce : (s.passBy).nonce = s.nonce := rfl
@[simp] theorem State.passBy_ctr : (s.passBy).ctr = s.ctr := rfl
@[simp] theorem State.passBy_len : (s.passBy).len = s.len := rfl
@[simp] theorem State.passBy_dbuf : (s.passBy).dbuf = s.dbuf := rfl
@[simp] theorem State.passBy_fault : (s.passBy).fault = s.fault := rfl
@[simp] theorem State.passBy_fcode : (s.passBy).fcode = s.fcode := rfl
@[simp] theorem State.passBy_finfo : (s.passBy).finfo = s.finfo := rfl
@[simp] theorem State.passBy_params : (s.passBy).params = s.params := rfl
@[simp] theorem State.passBy_pending : (s.passBy).pending = s.pending := rfl
@[simp] theorem State.passBy_pc : (s.passBy).pc = s.pc + 1 := rfl
@[simp] theorem State.passBy_responses : (s.passBy).responses = s.responses := rfl

@[simp] theorem State.zeroSecrets_x : (s.zeroSecrets).x = Vector.replicate 16 0 := rfl
@[simp] theorem State.zeroSecrets_snap : (s.zeroSecrets).snap = Vector.replicate 16 0 := rfl
@[simp] theorem State.zeroSecrets_key : (s.zeroSecrets).key = Vector.replicate 8 0 := rfl
@[simp] theorem State.zeroSecrets_nonce : (s.zeroSecrets).nonce = Vector.replicate 3 0 := rfl
@[simp] theorem State.zeroSecrets_ctr : (s.zeroSecrets).ctr = 0 := rfl
@[simp] theorem State.zeroSecrets_len : (s.zeroSecrets).len = 0 := rfl
@[simp] theorem State.zeroSecrets_dbuf : (s.zeroSecrets).dbuf = Vector.replicate 16 0 := rfl
@[simp] theorem State.zeroSecrets_fault : (s.zeroSecrets).fault = s.fault := rfl
@[simp] theorem State.zeroSecrets_fcode : (s.zeroSecrets).fcode = s.fcode := rfl
@[simp] theorem State.zeroSecrets_finfo : (s.zeroSecrets).finfo = s.finfo := rfl
@[simp] theorem State.zeroSecrets_params : (s.zeroSecrets).params = s.params := rfl
@[simp] theorem State.zeroSecrets_pending : (s.zeroSecrets).pending = s.pending := rfl
@[simp] theorem State.zeroSecrets_pc : (s.zeroSecrets).pc = s.pc := rfl
@[simp] theorem State.zeroSecrets_responses : (s.zeroSecrets).responses = s.responses := rfl

@[simp] theorem State.resetRegisters_x : (s.resetRegisters).x = Vector.replicate 16 0 := rfl
@[simp] theorem State.resetRegisters_snap : (s.resetRegisters).snap = Vector.replicate 16 0 := rfl
@[simp] theorem State.resetRegisters_key : (s.resetRegisters).key = Vector.replicate 8 0 := rfl
@[simp] theorem State.resetRegisters_nonce : (s.resetRegisters).nonce = Vector.replicate 3 0 := rfl
@[simp] theorem State.resetRegisters_ctr : (s.resetRegisters).ctr = 0 := rfl
@[simp] theorem State.resetRegisters_len : (s.resetRegisters).len = 0 := rfl
@[simp] theorem State.resetRegisters_dbuf : (s.resetRegisters).dbuf = Vector.replicate 16 0 := rfl
@[simp] theorem State.resetRegisters_fault : (s.resetRegisters).fault = false := rfl
@[simp] theorem State.resetRegisters_fcode : (s.resetRegisters).fcode = 0 := rfl
@[simp] theorem State.resetRegisters_finfo : (s.resetRegisters).finfo = 0 := rfl
@[simp] theorem State.resetRegisters_params : (s.resetRegisters).params = s.params := rfl
@[simp] theorem State.resetRegisters_pending : (s.resetRegisters).pending = s.pending := rfl
@[simp] theorem State.resetRegisters_pc : (s.resetRegisters).pc = s.pc := rfl
@[simp] theorem State.resetRegisters_responses : (s.resetRegisters).responses = s.responses := rfl

end Sys2Proof.Machine
end

