-- ==== Sys2Proof/Laws/Ops.lean ====
section
/-! SUPPORT. What each shared operation can do, said once: taking a fault, the freeze, the chunk-length check, the
answers of a step, the meaning of each command in a state without a fault and in a faulted one, and a step with its
next input known. -/

namespace Sys2Proof.Machine

/-! ### Taking a fault (60_exceptions.md R193) and the freeze (R195) -/

@[simp] theorem raise_of_fault {s : State} (h : s.fault = true) (c : FaultCause) (i : Word) : s.raise c i = s := by
  simp [State.raise, h]

@[simp] theorem raise_of_clear {s : State} (h : s.fault = false) (c : FaultCause) (i : Word) :
    s.raise c i = s.setRecord c.code i := by simp [State.raise, h]

/-- Taking a fault either leaves the state or writes the record into a state that has none. -/
theorem raise_cases (s : State) (c : FaultCause) (i : Word) :
    (s.fault = true ∧ s.raise c i = s) ∨ (s.fault = false ∧ s.raise c i = s.setRecord c.code i) := by
  cases h : s.fault <;> simp [h]

@[simp] theorem unlessFaulted_of_fault {s : State} (h : s.fault = true) (f : State → State) :
    s.unlessFaulted f = s := by simp [State.unlessFaulted, h]

@[simp] theorem unlessFaulted_of_clear {s : State} (h : s.fault = false) (f : State → State) :
    s.unlessFaulted f = f s := by simp [State.unlessFaulted, h]

/-- Nothing but the record can differ after a fault is taken (R194). -/
theorem raise_keeps (s : State) (c : FaultCause) (i : Word) :
    SameSecrets s (s.raise c i) ∧ SameSurroundings s (s.raise c i) := by
  rcases raise_cases s c i with ⟨-, h⟩ | ⟨-, h⟩ <;> simp [h, SameSecrets, SameInputs, SameSurroundings]

/-- The chunk-length check runs the body with the length, or records BAD_LEN. -/
theorem withLegalLen_of_le (i : Instr) (body : (n : Nat) → n ≤ 64 → State → State) {s : State}
    (h : s.len.toNat ≤ 64) : withLegalLen i body s = body s.len.toNat h s := by simp [withLegalLen, h]

theorem withLegalLen_of_gt (i : Instr) (body : (n : Nat) → n ≤ 64 → State → State) {s : State}
    (h : 64 < s.len.toNat) : withLegalLen i body s = s.raise .badLen (encode i) := by
  simp [withLegalLen, Nat.not_le.mpr h]

/-! ### Answers -/

@[simp] theorem mapNext_next (f : State → State) (t : State) : mapNext f (.next t) = .next (f t) := rfl

@[simp] theorem nextState_next (t : State) : nextState (.next t) = some t := rfl

theorem nextState_eq_some {o : Host.Outcome State Fault Refusal} {t : State} :
    nextState o = some t ↔ o = .next t := by cases o <;> simp [nextState]

/-- No step ends in a fault of the model: the type has no value (log entry 7). -/
theorem not_fault (r : Fault) : False := nomatch r

/-! ### The meanings -/

/-- The effect of a command in a state without a fault, as one function: what `exec` answers with. -/
def commandEffect (i : Instr) (s : State) : State :=
  match i with
  | .nop => s
  | .init => initBody s
  | .qr a b c d => qrBody a b c d s
  | .colround => s.setX (columnRound s.x)
  | .diaground => s.setX (diagonalRound s.x)
  | .dround => s.setX (doubleRound s.x)
  | .snap => snapBody s
  | .feedfwd => feedfwdBody s
  | .block => blockBody s
  | .xorks => withLegalLen .xorks xorksBody s
  | .ctrinc => ctrincBody s
  | .step => withLegalLen .step stepBody s
  | .scrub => s.zeroSecrets

/-- While no fault is recorded, exec answers with the command's effect. -/
theorem exec_of_clear (i : Instr) {s : State} (h : s.fault = false) : exec i s = .next (commandEffect i s) := by
  cases i <;>
    simp [exec, execNop, execInit, execQr, execColround, execDiaground, execDround, execSnap, execFeedfwd, execBlock,
      execXorks, execCtrinc, execStep, execScrub, commandEffect, h]

/-- While a fault is recorded, exec leaves the state, but for SCRUB (R195). -/
theorem exec_of_fault (i : Instr) {s : State} (h : s.fault = true) (hi : i ≠ .scrub) : exec i s = .next s := by
  cases i <;>
    simp_all [exec, execNop, execInit, execQr, execColround, execDiaground, execDround, execSnap, execFeedfwd,
      execBlock, execXorks, execCtrinc, execStep]

theorem exec_scrub (s : State) : exec .scrub s = .next s.zeroSecrets := rfl

/-! ### One step with its next input known -/

theorem step_idle {s : State} (h : s.pending = []) : step s = .next s := by simp [step, h]

theorem step_input {s : State} {i : Input} {rest : List Input} (h : s.pending = i :: rest) :
    step s = serve i (s.setPending rest) := by simp [step, h]

theorem inWindow_base_add (p : Params) {off : Nat} (h : off < windowSize) : inWindow p (p.pBase + off) = true := by
  simp [inWindow]; exact h

/-- A Read at a window offset is served by busRead. -/
theorem step_read {s : State} {off size : Nat} {rest : List Input} (ho : off < windowSize)
    (h : s.pending = .txn (.read (s.params.pBase + off) size) :: rest) :
    step s = .next (busRead off size (s.setPending rest)) := by
  rw [step_input h]
  simp only [serve, transact, State.setPending_params, inWindow_base_add _ ho, if_true, Nat.add_sub_cancel_left]

/-- A Write at a window offset is served by busWrite. -/
theorem step_write {s : State} {off size : Nat} {v : Word} {rest : List Input} (ho : off < windowSize)
    (h : s.pending = .txn (.write (s.params.pBase + off) size v) :: rest) :
    step s = busWrite off size v (s.setPending rest) := by
  rw [step_input h]
  simp only [serve, transact, State.setPending_params, inWindow_base_add _ ho, if_true, Nat.add_sub_cancel_left]

end Sys2Proof.Machine
end

