-- ==== Sys2Proof/Laws/Commands.lean ====
section
/-! SUPPORT. What each command answers with while no fault is recorded, as one equation per command over the model's own
operations, and what the ARX micro-operation does to the four words of a quarter-round and to the others. -/

namespace Sys2Proof.Machine

/-! ### The quarter-round engine -/

theorem indicesDistinct_iff (a b c d : Fin 16) : indicesDistinct a b c d = true ↔ [a, b, c, d].Nodup := by
  simp [indicesDistinct]; tauto

/-- One ARX step of a quarter-round on its own four words (R120, R121). -/
theorem arx_words (x : Words16) {a b c d : Fin 16} (h : [a, b, c, d].Nodup) (r : Nat) :
    (arx a b d r x)[a] = add32 x[a] x[b] ∧ (arx a b d r x)[b] = x[b] ∧ (arx a b d r x)[c] = x[c] ∧
      (arx a b d r x)[d] = rotl32 (xor32 x[d] (add32 x[a] x[b])) r := by
  simp only [List.nodup_cons, List.mem_cons, List.not_mem_nil, or_false, not_or] at h
  obtain ⟨⟨hab, hac, had⟩, ⟨hbc, hbd⟩, hcd, -⟩ := h
  have h1 : a.val ≠ b := fun e => hab (Fin.ext e)
  have h2 : a.val ≠ c := fun e => hac (Fin.ext e)
  have h3 : a.val ≠ d := fun e => had (Fin.ext e)
  have h4 : b.val ≠ d := fun e => hbd (Fin.ext e)
  have h5 : c.val ≠ d := fun e => hcd (Fin.ext e)
  simp [arx, h1, h2, h3, h3.symm, h4.symm, h5.symm]

/-- An ARX step writes its first and third word alone. -/
theorem arx_other (x : Words16) {p q t j : Fin 16} (r : Nat) (hp : j ≠ p) (ht : j ≠ t) :
    (arx p q t r x)[j] = x[j] := by
  have h1 : p.val ≠ j := fun e => hp (Fin.ext e.symm)
  have h2 : t.val ≠ j := fun e => ht (Fin.ext e.symm)
  simp [arx, Vector.getElem_set, h1, h2]

/-- A quarter-round writes its four words alone. -/
theorem qrSteps_other (x : Words16) {a b c d j : Fin 16} (ha : j ≠ a) (hb : j ≠ b) (hc : j ≠ c) (hd : j ≠ d) :
    (qrSteps a b c d x)[j] = x[j] := by
  simp only [qrSteps]
  rw [arx_other _ _ hc hb, arx_other _ _ ha hd, arx_other _ _ hc hb, arx_other _ _ ha hd]

/-! ### The answers, command by command -/

variable {s : State}

@[simp] theorem State.setX_setX (v w : Words16) : (s.setX v).setX w = s.setX w := rfl

theorem exec_init (h : s.fault = false) : exec .init s = .next (s.setX (initialMatrix s.key s.nonce s.ctr)) :=
  exec_of_clear _ h

theorem exec_qr_of_distinct (h : s.fault = false) {a b c d : Fin 16} (hd : [a, b, c, d].Nodup) :
    exec (.qr a b c d) s = .next (s.setX (qrSteps a b c d s.x)) := by
  rw [exec_of_clear _ h]; simp only [commandEffect, qrBody, (indicesDistinct_iff a b c d).2 hd, if_true]

theorem exec_qr_of_equal (h : s.fault = false) {a b c d : Fin 16} (hd : ¬ [a, b, c, d].Nodup) :
    exec (.qr a b c d) s = .next (s.setRecord FaultCause.aliased.code (encode (.qr a b c d))) := by
  rw [exec_of_clear _ h]
  have e : indicesDistinct a b c d = false := by
    rw [← indicesDistinct_iff] at hd; simpa using hd
  simp [commandEffect, qrBody, e, h]

theorem exec_colround (h : s.fault = false) : exec .colround s = .next (s.setX (columnRound s.x)) :=
  exec_of_clear _ h

theorem exec_diaground (h : s.fault = false) : exec .diaground s = .next (s.setX (diagonalRound s.x)) :=
  exec_of_clear _ h

theorem exec_dround (h : s.fault = false) : exec .dround s = .next (s.setX (doubleRound s.x)) :=
  exec_of_clear _ h

theorem exec_snap (h : s.fault = false) : exec .snap s = .next (s.setSnap s.x) := exec_of_clear _ h

theorem exec_feedfwd (h : s.fault = false) : exec .feedfwd s = .next (s.setX (addWords s.x s.snap)) :=
  exec_of_clear _ h

theorem exec_block (h : s.fault = false) :
    exec .block s = .next ((s.setSnap s.x).setX (addWords (repeatTimes 10 doubleRound s.x) s.x)) := by
  rw [exec_of_clear _ h]
  simp only [commandEffect, blockBody, feedfwdBody, roundsBody, snapBody, State.setX_x, State.setX_snap,
    State.setSnap_x, State.setSnap_snap, State.setX_setX]

theorem exec_xorks (h : s.fault = false) (hl : s.len.toNat ≤ 64) :
    exec .xorks s = .next (s.setDbuf (xorBytes s.x s.len.toNat hl s.dbuf)) := by
  rw [exec_of_clear _ h, commandEffect, withLegalLen_of_le _ _ hl, xorksBody]

theorem exec_ctrinc (h : s.fault = false) : exec .ctrinc s = .next (s.setCtr (add32 s.ctr 1)) :=
  exec_of_clear _ h

/-- The keystream block of a key, a nonce and a counter: what BLOCK makes of the matrix INIT builds. -/
def keystreamBlock (key : KeyWords) (nonce : NonceWords) (ctr : Word) : Words16 :=
  addWords (repeatTimes 10 doubleRound (initialMatrix key nonce ctr)) (initialMatrix key nonce ctr)

/-- The block that STEP makes. -/
def stepBlock (s : State) : Words16 := keystreamBlock s.key s.nonce s.ctr

theorem exec_step (h : s.fault = false) (hl : s.len.toNat ≤ 64) :
    exec .step s = .next
      ((((s.setX (stepBlock s)).setSnap (initialMatrix s.key s.nonce s.ctr)).setDbuf
        (xorBytes (stepBlock s) s.len.toNat hl s.dbuf)).setCtr (add32 s.ctr 1)) := by
  rw [exec_of_clear _ h, commandEffect, withLegalLen_of_le _ _ hl]
  simp only [stepBody, initBody, blockBody, feedfwdBody, roundsBody, snapBody, xorksBody, ctrincBody, State.setX,
    State.setSnap, State.setDbuf, State.setCtr, stepBlock, keystreamBlock]

/-- A chunk longer than the buffer is recorded, by XORKS and STEP alike (R162, R166). -/
theorem exec_of_long (h : s.fault = false) (hl : 64 < s.len.toNat) :
    exec .xorks s = .next (s.setRecord FaultCause.badLen.code (encode .xorks)) ∧
      exec .step s = .next (s.setRecord FaultCause.badLen.code (encode .step)) := by
  rw [exec_of_clear _ h, exec_of_clear _ h]
  simp [commandEffect, withLegalLen_of_gt _ _ hl, raise_of_clear h]

/-- What a command leaves alone whatever it does: the parameters and the host's side; and a record stands once made. -/
theorem commandEffect_surroundings (i : Instr) (s : State) :
    SameSurroundings s (commandEffect i s) ∧ (s.fault = true → (commandEffect i s).fault = true) := by
  have hr : ∀ c w, SameSurroundings s (s.raise c w) ∧ (s.fault = true → (s.raise c w).fault = true) := fun c w =>
    ⟨(raise_keeps s c w).2, fun h => by rw [raise_of_fault h]; exact h⟩
  cases i with
  | qr a b c d =>
    simp only [commandEffect, qrBody]
    split
    · simp [SameSurroundings]
    · exact hr _ _
  | xorks =>
    simp only [commandEffect, withLegalLen, xorksBody]
    split
    · simp [SameSurroundings]
    · exact hr _ _
  | step =>
    simp only [commandEffect, withLegalLen]
    split
    · simp [stepBody, xorksBody, initBody, blockBody, feedfwdBody, roundsBody, snapBody, ctrincBody, SameSurroundings]
    · exact hr _ _
  | _ =>
    simp [commandEffect, initBody, blockBody, feedfwdBody, roundsBody, snapBody, ctrincBody, SameSurroundings]

end Sys2Proof.Machine
end

