-- ==== Sys2Proof/Laws/Decode.lean ====
section
/-! SUPPORT. The words of the model as numbers: an or of fields that do not overlap is a sum, and each field of a
command word is a quotient and a remainder. -/

namespace Sys2Proof.Machine

/-- A field put above the bits of a word adds to it. -/
theorem toNat_or_shiftLeft (x y : Word) (k : Nat) (hx : x.toNat < 2 ^ k) (hy : y.toNat * 2 ^ k < 2 ^ 32) :
    (x ||| (y <<< k)).toNat = x.toNat + 2 ^ k * y.toNat := by
  rw [BitVec.toNat_or, BitVec.toNat_shiftLeft, Nat.shiftLeft_eq, Nat.mod_eq_of_lt hy, Nat.or_comm,
    Nat.mul_comm y.toNat, ← Nat.two_pow_add_eq_or_of_lt hx, Nat.add_comm]

/-- The little-endian decode as a sum (R10). -/
theorem le32_toNat (b0 b1 b2 b3 : Byte) : (le32 b0 b1 b2 b3).toNat =
    b0.toNat + 2 ^ 8 * b1.toNat + 2 ^ 16 * b2.toNat + 2 ^ 24 * b3.toNat := by
  have h0 := b0.isLt
  have h1 := b1.isLt
  have h2 := b2.isLt
  have h3 := b3.isLt
  have e : ∀ b : Byte, (b.setWidth 32).toNat = b.toNat := fun b => by
    rw [BitVec.toNat_setWidth]
    have := b.isLt
    omega
  have s1 := toNat_or_shiftLeft (b0.setWidth 32) (b1.setWidth 32) 8 (by rw [e]; omega) (by rw [e]; omega)
  have s2 := toNat_or_shiftLeft (b0.setWidth 32 ||| b1.setWidth 32 <<< 8) (b2.setWidth 32) 16
    (by rw [s1, e, e]; omega) (by rw [e]; omega)
  have s3 := toNat_or_shiftLeft (b0.setWidth 32 ||| b1.setWidth 32 <<< 8 ||| b2.setWidth 32 <<< 16) (b3.setWidth 32)
    24 (by rw [s2, s1, e, e, e]; omega) (by rw [e]; omega)
  rw [le32, s3, s2, s1, e, e, e, e]

/-- The word of QR as a sum (R80, R88). -/
theorem encode_qr_toNat (a b c d : Fin 16) : (encode (.qr a b c d)).toNat =
    2 + 2 ^ 8 * a.val + 2 ^ 12 * b.val + 2 ^ 16 * c.val + 2 ^ 20 * d.val := by
  have h0 := a.isLt
  have h1 := b.isLt
  have h2 := c.isLt
  have h3 := d.isLt
  have e : ∀ i : Fin 16, (BitVec.ofNat 32 i.val).toNat = i.val := fun i => by
    rw [BitVec.toNat_ofNat]
    have := i.isLt
    omega
  have e2 : (0x00000002 : Word).toNat = 2 := rfl
  have s0 := toNat_or_shiftLeft 0x00000002 (BitVec.ofNat 32 a.val) 8 (by decide) (by rw [e]; omega)
  have s1 := toNat_or_shiftLeft _ (BitVec.ofNat 32 b.val) 12 (by rw [s0, e, e2]; omega) (by rw [e]; omega)
  have s2 := toNat_or_shiftLeft _ (BitVec.ofNat 32 c.val) 16 (by rw [s1, s0, e, e, e2]; omega) (by rw [e]; omega)
  have s3 := toNat_or_shiftLeft _ (BitVec.ofNat 32 d.val) 20 (by rw [s2, s1, s0, e, e, e, e2]; omega)
    (by rw [e]; omega)
  simp only [encode, indexBits]
  rw [s3, s2, s1, s0, e, e, e, e, e2]

/-- The opcode field as a number (R80). -/
theorem opField_toNat (w : Word) : (opField w).toNat = w.toNat % 2 ^ 8 := by simp [opField]

/-- The reserved field of format N as a number (R80). -/
theorem reservedN_toNat (w : Word) : (reservedN w).toNat = w.toNat / 2 ^ 8 := by
  have := w.isLt
  simp [reservedN, Nat.shiftRight_eq_div_pow]
  omega

/-- The reserved field of format Q as a number (R80). -/
theorem reservedQ_toNat (w : Word) : (reservedQ w).toNat = w.toNat / 2 ^ 24 := by
  have := w.isLt
  simp [reservedQ, Nat.shiftRight_eq_div_pow]
  omega

/-- An index field as a number (R81). -/
theorem indexField_val (w : Word) (lo : Nat) : (indexField w lo).val = w.toNat / 2 ^ lo % 16 := by
  simp [indexField, Nat.shiftRight_eq_div_pow]

/-- The format-N commands by their opcode (R82). -/
theorem formatNCommand_eq_none (op : BitVec 8) : formatNCommand op = none ↔ op.toNat = 2 ∨ 0x0C < op.toNat := by
  revert op
  decide

end Sys2Proof.Machine
end

