-- ==== Sys2Proof/Laws/PerInstr.lean ====
section
/-! SUPPORT. What is said of every instruction as syntax, one lemma per constructor: the word of a command selects its
own row of the opcode table and no other (30_encoding.md R83, R88). -/

namespace Sys2Proof.Laws.OpcodeRow

/-- The command's word selects its own row of the table and no other. -/
def Statement (i : Instr) : Prop := ∀ r ∈ opcodeTable, (r.selects (encode i) = true ↔ r = opcodeRow i)

/-- The word of QR without its index fields. -/
theorem qr_masked (a b c d : Fin 16) : encode (.qr a b c d) &&& 0xFF0000FF#32 = 0x00000002#32 := by
  have h8 : ∀ i : Fin 16, indexBits i 8 &&& 0xFF0000FF#32 = 0#32 := by decide
  have h12 : ∀ i : Fin 16, indexBits i 12 &&& 0xFF0000FF#32 = 0#32 := by decide
  have h16 : ∀ i : Fin 16, indexBits i 16 &&& 0xFF0000FF#32 = 0#32 := by decide
  have h20 : ∀ i : Fin 16, indexBits i 20 &&& 0xFF0000FF#32 = 0#32 := by decide
  have e : ∀ x y m : Word, (x ||| y) &&& m = (x &&& m) ||| (y &&& m) := fun x y m => by
    apply BitVec.eq_of_getLsbD_eq
    intro i _
    simp only [BitVec.getLsbD_and, BitVec.getLsbD_or, Bool.and_or_distrib_right]
  simp only [encode, e, h8, h12, h16, h20]
  decide

/-- A format-N row selects its own word alone. -/
theorem selects_full (n : String) (p w : Word) : (OpcodeRow.mk n p 0xFFFFFFFF#32).selects w = true ↔ w = p := by
  have e : w &&& 0xFFFFFFFF#32 = w := by
    rw [show (0xFFFFFFFF#32) = BitVec.allOnes 32 by decide, BitVec.and_allOnes]
  simp [OpcodeRow.selects, e]

theorem nop : Statement .nop := by unfold Statement; decide

theorem init : Statement .init := by unfold Statement; decide

theorem qr (a b c d : Fin 16) : Statement (.qr a b c d) := by
  have hm := qr_masked a b c d
  have hne : ∀ p : Word, p &&& 0xFF0000FF#32 ≠ 0x00000002#32 → encode (.qr a b c d) ≠ p := fun p hp h =>
    hp (h ▸ hm)
  intro r hr
  simp only [opcodeTable, List.map_cons, List.map_nil, opcodeRow, List.mem_cons, List.not_mem_nil, or_false] at hr
  rcases hr with rfl | rfl | rfl | rfl | rfl | rfl | rfl | rfl | rfl | rfl | rfl | rfl | rfl
  case inr.inr.inl => simp [OpcodeRow.selects, opcodeRow, hm]
  all_goals
    refine (selects_full _ _ _).trans ?_
    exact iff_of_false (hne _ (by decide)) (by simp [opcodeRow])

theorem colround : Statement .colround := by unfold Statement; decide

theorem diaground : Statement .diaground := by unfold Statement; decide

theorem dround : Statement .dround := by unfold Statement; decide

theorem snap : Statement .snap := by unfold Statement; decide

theorem feedfwd : Statement .feedfwd := by unfold Statement; decide

theorem block : Statement .block := by unfold Statement; decide

theorem xorks : Statement .xorks := by unfold Statement; decide

theorem ctrinc : Statement .ctrinc := by unfold Statement; decide

theorem step : Statement .step := by unfold Statement; decide

theorem scrub : Statement .scrub := by unfold Statement; decide

end Sys2Proof.Laws.OpcodeRow
end

