-- ==== Sys2Proof/Laws/Window.lean ====
section
/-! SUPPORT. The address map in the form the proofs about the bus use: an aligned offset names at most one register,
and which offsets name none (20_memory.md R60). -/

namespace Sys2Proof.Machine

theorem regAt_regOffset (r : Reg) : regAt (regOffset r) = some r := by
  cases r with
  | cmd => rfl
  | status => rfl
  | finfo => rfl
  | len => rfl
  | ctr => rfl
  | key i => revert i; decide
  | nonce i => revert i; decide
  | dbuf i => revert i; decide
  | x i => revert i; decide
  | s i => revert i; decide

theorem regOffset_aligned (r : Reg) : regOffset r % 4 = 0 := by cases r <;> simp [regOffset]

theorem regOffset_lt (r : Reg) : regOffset r < 0x180 := by cases r <;> simp [regOffset] <;> omega

/-- An aligned 32-bit access at a register's own offset is servable and finds the register. -/
theorem servable_regOffset (r : Reg) : servable (regOffset r) 4 = true := by
  simp [servable, regOffset_aligned]

theorem busRead_reg (r : Reg) (s : State) : busRead (regOffset r) 4 s = s.complete (.okRead (readReg r s)) := by
  simp [busRead, servable_regOffset, regAt_regOffset]

theorem busWrite_reg (r : Reg) (v : Word) (s : State) :
    busWrite (regOffset r) 4 v s = writeReg (regOffset r) r v s := by
  simp [busWrite, servable_regOffset, regAt_regOffset]

theorem regAt_none_of_reserved {off : Nat}
    (h : (0x014 ≤ off ∧ off < 0x020) ∨ (0x04C ≤ off ∧ off < 0x080) ∨ (0x0C0 ≤ off ∧ off < 0x100) ∨ 0x180 ≤ off) :
    regAt off = none := by
  simp only [regAt]
  repeat (first | rw [if_neg (by omega)] | rw [dif_neg (by omega)])

/-- The offsets of the map, aligned and below its last register: each names its own register, or none. -/
theorem regAt_below : ∀ off : Fin 0x180, off.val % 4 = 0 →
    (regAt off).elim (decide ((0x014 ≤ off.val ∧ off.val < 0x020) ∨ (0x04C ≤ off.val ∧ off.val < 0x080) ∨
      (0x0C0 ≤ off.val ∧ off.val < 0x100))) (fun r => regOffset r == off) = true := by
  decide +kernel

end Sys2Proof.Machine
end

