-- ==== Sys2Proof/Laws/Step.lean ====
section
/-! SUPPORT. Everything a step can do, said once: the ways a command word, a transaction and a step can end. A proof
about every step takes these cases and unfolds nothing. -/

namespace Sys2Proof.Machine

/-- A word written to CMD is ignored, or recorded as illegal, or run (R83, R195). -/
theorem command_cases (w : Word) (s : State) :
    (s.fault = true ∧ command w s = .next s) ∨
    (s.fault = false ∧ (∃ e, decode w = .error e) ∧
      command w s = .next (s.setRecord FaultCause.illegalCmd.code w)) ∨
    (s.fault = false ∧ ∃ i, decode w = .ok i ∧ command w s = .next (commandEffect i s)) ∨
    (s.fault = true ∧ w = scrubWord ∧ command w s = .next s.zeroSecrets) := by
  cases hf : s.fault with
  | true =>
    by_cases hw : w = scrubWord
    · subst hw
      exact .inr (.inr (.inr ⟨rfl, rfl, by simp only [command, hf]; rfl⟩))
    · refine .inl ⟨rfl, ?_⟩
      simp [command, hf, hw]
  | false =>
    cases hd : decode w with
    | error e =>
      refine .inr (.inl ⟨rfl, ⟨e, rfl⟩, ?_⟩)
      simp [command, hf, hd]
    | ok i =>
      refine .inr (.inr (.inl ⟨rfl, i, rfl, ?_⟩))
      simp [command, hf, hd, exec_of_clear]

/-- Every command word is answered with a next state. -/
theorem command_next (w : Word) (s : State) : ∃ t, command w s = .next t := by
  rcases command_cases w s with ⟨-, h⟩ | ⟨-, -, h⟩ | ⟨-, i, -, h⟩ | ⟨-, -, h⟩ <;> exact ⟨_, h⟩

/-- A register write, as the state before its response (R56, R57). -/
inductive RegisterWritten (s : State) : State → Prop where
  | len (v : Word) : RegisterWritten s (s.setLen v)
  | key (i : Fin 8) (v : Word) : RegisterWritten s (s.setKey (s.key.set i v))
  | nonce (i : Fin 3) (v : Word) : RegisterWritten s (s.setNonce (s.nonce.set i v))
  | dbuf (i : Fin 16) (v : Word) : RegisterWritten s (s.setDbuf (s.dbuf.set i v))
  | ctr (v : Word) (h : s.params.restrictCtr = false ∨ v.toNat ≤ 1) : RegisterWritten s (s.setCtr v)

/-- How a transaction can end. -/
inductive Transacted (x : Transaction) (s : State) : State → Prop where
  | outside : Transacted x s s.passBy
  | read (r : Reg) : Transacted x s (s.complete (.okRead (readReg r s)))
  | refused (kind : AccessKind) (off size : Nat) (h : off < windowSize) :
    Transacted x s (busError kind off size s)
  | written (t : State) (h : RegisterWritten s t) : Transacted x s (t.complete .okWrite)
  | badCounter (v : Word) (hr : s.params.restrictCtr = true) (hv : 1 < v.toNat) :
    Transacted x s ((s.raise .badCounter v).complete .okWrite)
  | commanded (w : Word) (t : State) (hx : x = .write s.params.pBase 4 w) (h : command w s = .next t) :
    Transacted x s (t.complete .okWrite)

/-- CMD alone stands at offset 0. -/
theorem regAt_eq_cmd {off : Nat} (h : regAt off = some .cmd) : off = 0 := by
  unfold regAt at h
  split at h
  · assumption
  · repeat (first | (split at h; · cases h) | cases h)

/-- Every transaction is answered with a next state, and these are the ways it can end (R52-R61). -/
theorem transact_cases (x : Transaction) (s : State) : ∃ t, transact x s = .next t ∧ Transacted x s t := by
  cases x with
  | read addr size =>
    simp only [transact]
    split
    · rename_i hw
      simp only [inWindow, decide_eq_true_eq] at hw
      have ho : addr - s.params.pBase < windowSize := by omega
      refine ⟨_, rfl, ?_⟩
      simp only [busRead]
      split
      · split
        · exact .refused _ _ _ ho
        · exact .read _
      · exact .refused _ _ _ ho
    · exact ⟨_, rfl, .outside⟩
  | write addr size v =>
    simp only [transact]
    split
    · rename_i hw
      simp only [inWindow, decide_eq_true_eq] at hw
      have ho : addr - s.params.pBase < windowSize := by omega
      simp only [busWrite]
      split
      · rename_i hs
        split
        · exact ⟨_, rfl, .refused _ _ _ ho⟩
        · rename_i r hr
          cases r with
          | cmd =>
            obtain ⟨t, ht⟩ := command_next v s
            refine ⟨t.complete .okWrite, by simp only [writeReg, ht, mapNext_next], .commanded v t ?_ ht⟩
            have h0 := regAt_eq_cmd hr
            simp only [servable, Bool.and_eq_true, beq_iff_eq] at hs
            rw [hs.1, show addr = s.params.pBase by omega]
          | ctr =>
            refine ⟨_, rfl, ?_⟩
            simp only [writeCtr]
            split
            · rename_i hc
              simp only [Bool.and_eq_true, decide_eq_true_eq] at hc
              exact .badCounter v hc.1 hc.2
            · rename_i hc
              refine .written _ (.ctr v ?_)
              cases hp : s.params.restrictCtr
              · exact .inl rfl
              · right
                simpa [hp] using hc
          | len => exact ⟨_, rfl, .written _ (.len v)⟩
          | key i => exact ⟨_, rfl, .written _ (.key i v)⟩
          | nonce i => exact ⟨_, rfl, .written _ (.nonce i v)⟩
          | dbuf i => exact ⟨_, rfl, .written _ (.dbuf i v)⟩
          | status => exact ⟨_, rfl, .refused .write _ 4 ho⟩
          | finfo => exact ⟨_, rfl, .refused .write _ 4 ho⟩
          | x i => exact ⟨_, rfl, .refused .write _ 4 ho⟩
          | s i => exact ⟨_, rfl, .refused .write _ 4 ho⟩
      · exact ⟨_, rfl, .refused _ _ _ ho⟩
    · exact ⟨_, rfl, .outside⟩

/-- How a step can end: idle, a reset, or a transaction. -/
theorem step_cases (s : State) : ∃ t, step s = .next t ∧
    ((s.pending = [] ∧ t = s) ∨
     (∃ rest, s.pending = .reset :: rest ∧ t = (s.setPending rest).resetRegisters) ∨
     ∃ x rest, s.pending = .txn x :: rest ∧ Transacted x (s.setPending rest) t) := by
  cases hp : s.pending with
  | nil => exact ⟨s, step_idle hp, .inl ⟨rfl, rfl⟩⟩
  | cons i rest =>
    cases i with
    | reset => exact ⟨_, step_input hp, .inr (.inl ⟨rest, rfl, rfl⟩)⟩
    | txn x =>
      obtain ⟨t, ht, hc⟩ := transact_cases x (s.setPending rest)
      exact ⟨t, (step_input hp).trans ht, .inr (.inr ⟨x, rest, rfl, hc⟩)⟩

/-- `step_cases` for a state already known to follow. -/
theorem of_step {s t : State} (h : step s = .next t) :
    (s.pending = [] ∧ t = s) ∨
    (∃ rest, s.pending = .reset :: rest ∧ t = (s.setPending rest).resetRegisters) ∨
    ∃ x rest, s.pending = .txn x :: rest ∧ Transacted x (s.setPending rest) t := by
  obtain ⟨u, hu, hc⟩ := step_cases s
  obtain rfl : u = t := by simpa using hu.symm.trans h
  exact hc

/-- A run takes a step and goes on from where it leads. -/
theorem run_succ {s t : State} (h : step s = .next t) (k : Nat) :
    Host.Core.run core (k + 1) s = Host.Core.run core k t := by
  have e : core.step s = .next t := h
  simp only [Host.Core.run, e]

/-- What holds after reset and is kept by every step holds of every reachable state. -/
theorem of_reachable {P : State → Prop} (start : ∀ p inputs, P ((State.resetWith p).setPending inputs))
    (kept : ∀ s t, P s → Sys2Proof.Machine.step s = .next t → P t) {s : State} (h : Reachable s) : P s := by
  induction h with
  | reset p inputs => exact start p inputs
  | step _ hst ih => exact kept _ _ ih hst

end Sys2Proof.Machine
end

