-- ==== Sys2Proof/Laws/Program.lean ====
section
/-! SUPPORT. What a host program does, transaction by transaction and line by line, and what `process` hands the host:
each byte of the message XORed with its keystream byte (43_keystream.md R168, R172). -/

namespace Sys2Proof.Machine

/-! ### A list of transactions, served from a state whatever follows them -/

/-- The transactions of `l`, sent to `s`, leave `t` and are answered by `rs`, whatever is sent after them. -/
structure Ends (s : State) (l : List Transaction) (t : State) (rs : List Response) : Prop where
  answered : t.responses = s.responses ++ rs
  each : rs.length = l.length
  served : ∀ rest : List Input,
    Host.Core.run core l.length (s.setPending (l.map Input.txn ++ rest)) = .next (t.setPending rest)

theorem ends_nil (s : State) : Ends s [] s [] := ⟨by simp, rfl, fun _ => rfl⟩

theorem ends_one {s t : State} {x : Transaction} {r : Response} (hr : t.responses = s.responses ++ [r])
    (h : ∀ rest, step (s.setPending (.txn x :: rest)) = .next (t.setPending rest)) : Ends s [x] t [r] :=
  ⟨hr, rfl, fun rest => run_succ (h rest) 0⟩

theorem run_add (m n : Nat) {s t : State} (h : Host.Core.run core m s = .next t) :
    Host.Core.run core (m + n) s = Host.Core.run core n t := by
  induction m generalizing s with
  | zero =>
    obtain rfl : s = t := by injection h
    rw [Nat.zero_add]
  | succ m ih =>
    obtain ⟨u, hu, -⟩ := step_cases s
    rw [run_succ hu] at h
    rw [Nat.add_right_comm, run_succ hu]
    exact ih h

theorem Ends.trans {s t u : State} {l m : List Transaction} {rs qs : List Response} (h : Ends s l t rs)
    (k : Ends t m u qs) : Ends s (l ++ m) u (rs ++ qs) := by
  refine ⟨by rw [k.answered, h.answered, List.append_assoc], by simp [h.each, k.each], fun rest => ?_⟩
  rw [List.map_append, List.append_assoc, List.length_append, run_add _ _ (h.served _)]
  exact k.served rest

/-! ### One transaction -/

theorem ends_wr_len (s : State) (v : Word) :
    Ends s [wrTransaction s.params .len v] ((s.setLen v).complete .okWrite) [.okWrite] :=
  ends_one rfl fun rest => by
    rw [step_write (off := regOffset .len) (by decide) (rest := rest) rfl, busWrite_reg]; rfl

theorem ends_wr_ctr (s : State) (v : Word) (h : s.params.restrictCtr = false ∨ v.toNat ≤ 1) :
    Ends s [wrTransaction s.params .ctr v] ((s.setCtr v).complete .okWrite) [.okWrite] :=
  ends_one rfl fun rest => by
    have e : (s.params.restrictCtr && decide (1 < v.toNat)) = false := by
      rcases h with h | h
      · simp [h]
      · simp [Nat.not_lt.mpr h]
    rw [step_write (off := regOffset .ctr) (by decide) (rest := rest) rfl, busWrite_reg]
    simp only [writeReg, writeCtr, State.setPending_params, e]
    rfl

theorem ends_wr_key (s : State) (i : Fin 8) (v : Word) :
    Ends s [wrTransaction s.params (.key i) v] ((s.setKey (s.key.set i v)).complete .okWrite) [.okWrite] :=
  ends_one rfl fun rest => by
    have := regOffset_lt (.key i)
    rw [step_write (off := regOffset (.key i)) (by simp only [windowSize]; omega) (rest := rest) rfl, busWrite_reg]
    rfl

theorem ends_wr_nonce (s : State) (i : Fin 3) (v : Word) :
    Ends s [wrTransaction s.params (.nonce i) v] ((s.setNonce (s.nonce.set i v)).complete .okWrite) [.okWrite] :=
  ends_one rfl fun rest => by
    have := regOffset_lt (.nonce i)
    rw [step_write (off := regOffset (.nonce i)) (by simp only [windowSize]; omega) (rest := rest) rfl, busWrite_reg]
    rfl

theorem ends_wr_dbuf (s : State) (i : Fin 16) (v : Word) :
    Ends s [wrTransaction s.params (.dbuf i) v] ((s.setDbuf (s.dbuf.set i v)).complete .okWrite) [.okWrite] :=
  ends_one rfl fun rest => by
    have := regOffset_lt (.dbuf i)
    rw [step_write (off := regOffset (.dbuf i)) (by simp only [windowSize]; omega) (rest := rest) rfl, busWrite_reg]
    rfl

theorem ends_rd (s : State) (r : Reg) :
    Ends s [rdTransaction s.params r] (s.complete (.okRead (readReg r s))) [.okRead (readReg r s)] :=
  ends_one rfl fun rest => by
    have := regOffset_lt r
    rw [step_read (off := regOffset r) (by simp only [windowSize]; omega) (rest := rest) rfl, busRead_reg]
    cases r <;> rfl

/-- A command word, where the command has a known answer whatever the host still sends. -/
theorem ends_cmd {s t : State} {i : Instr} (hf : s.fault = false) (hd : decode (encode i) = .ok i)
    (hr : t.responses = s.responses) (h : ∀ rest, exec i (s.setPending rest) = .next (t.setPending rest)) :
    Ends s [commandWrite s.params (encode i)] (t.complete .okWrite) [.okWrite] :=
  ends_one (by simp [hr]) fun rest => by
    rw [step_write (off := regOffset .cmd) (by decide) (rest := rest) rfl, busWrite_reg]
    have e : command (encode i) ((s.setPending (Input.txn (commandWrite s.params (encode i)) :: rest)).setPending rest)
        = .next (t.setPending rest) := by
      simp only [command, State.setPending_fault, hf, Bool.false_and, Bool.false_eq_true, if_false, hd]
      exact h rest
    simp only [writeReg, e, mapNext_next]
    rfl

/-! ### The lines that load an array, and the one that reads it -/

/-- Words stored at a list of indices, one after the other. -/
def storeAll {n : Nat} (f : Fin n → Word) (l : List (Fin n)) (v : Vector Word n) : Vector Word n :=
  l.foldl (fun (v : Vector Word n) (i : Fin n) => v.set i (f i)) v

theorem getElem_storeAll {n : Nat} (l : List (Fin n)) (f : Fin n → Word) (v : Vector Word n) (j : Fin n) :
    (storeAll f l v)[j] = if j ∈ l then f j else v[j] := by
  induction l generalizing v with
  | nil => simp [storeAll]
  | cons i l ih =>
    rw [storeAll, List.foldl_cons, ← storeAll, ih]
    by_cases hl : j ∈ l
    · simp [hl]
    · by_cases hi : i = j
      · subst hi; simp [hl]
      · have hv : i.val ≠ j.val := fun e => hi (Fin.ext e)
        have hj : j ≠ i := fun e => hi e.symm
        simp [hl, hj, hv]

theorem ends_wr_keys (l : List (Fin 8)) (f : Fin 8 → Word) (s : State) :
    ∃ t, Ends s (l.map fun i => wrTransaction s.params (.key i) (f i)) t (List.replicate l.length .okWrite) ∧
      t = { s with key := storeAll f l s.key, pc := t.pc, responses := t.responses } := by
  induction l generalizing s with
  | nil => exact ⟨s, ends_nil s, rfl⟩
  | cons i l ih =>
    obtain ⟨t, h, e⟩ := ih ((s.setKey (s.key.set i (f i))).complete .okWrite)
    exact ⟨t, (ends_wr_key s i (f i)).trans h, e⟩

theorem ends_wr_nonces (l : List (Fin 3)) (f : Fin 3 → Word) (s : State) :
    ∃ t, Ends s (l.map fun i => wrTransaction s.params (.nonce i) (f i)) t (List.replicate l.length .okWrite) ∧
      t = { s with nonce := storeAll f l s.nonce, pc := t.pc, responses := t.responses } := by
  induction l generalizing s with
  | nil => exact ⟨s, ends_nil s, rfl⟩
  | cons i l ih =>
    obtain ⟨t, h, e⟩ := ih ((s.setNonce (s.nonce.set i (f i))).complete .okWrite)
    exact ⟨t, (ends_wr_nonce s i (f i)).trans h, e⟩

theorem ends_wr_dbufs (l : List (Fin 16)) (f : Fin 16 → Word) (s : State) :
    ∃ t, Ends s (l.map fun i => wrTransaction s.params (.dbuf i) (f i)) t (List.replicate l.length .okWrite) ∧
      t = { s with dbuf := storeAll f l s.dbuf, pc := t.pc, responses := t.responses } := by
  induction l generalizing s with
  | nil => exact ⟨s, ends_nil s, rfl⟩
  | cons i l ih =>
    obtain ⟨t, h, e⟩ := ih ((s.setDbuf (s.dbuf.set i (f i))).complete .okWrite)
    exact ⟨t, (ends_wr_dbuf s i (f i)).trans h, e⟩

theorem ends_rd_dbufs (l : List (Fin 16)) (s : State) :
    ∃ t, Ends s (l.map fun i => rdTransaction s.params (.dbuf i)) t (l.map fun i => .okRead s.dbuf[i]) ∧
      t = { s with pc := t.pc, responses := t.responses } := by
  induction l generalizing s with
  | nil => exact ⟨s, ends_nil s, rfl⟩
  | cons i l ih =>
    obtain ⟨t, h, e⟩ := ih (s.complete (.okRead s.dbuf[i]))
    exact ⟨t, (ends_rd s (.dbuf i)).trans h, e⟩

/-! ### The bytes of a chunk -/

/-- Byte j of the little-endian bytes of a list of words (R10). -/
theorem lebytes_getElem? (ws : List Word) (j : Nat) :
    (lebytes ws)[j]? = (ws[j / 4]?).map fun w => byteOf w (j % 4) := by
  induction ws generalizing j with
  | nil => simp [lebytes]
  | cons w ws ih =>
    have e : lebytes (w :: ws) = byteOf w 0 :: byteOf w 1 :: byteOf w 2 :: byteOf w 3 :: lebytes ws := rfl
    rw [e]
    match j with
    | 0 => rfl
    | 1 => rfl
    | 2 => rfl
    | 3 => rfl
    | j + 4 =>
      rw [show (j + 4) / 4 = j / 4 + 1 by omega, Nat.add_mod_right]
      simpa using ih j

theorem byteOf_le32 (b0 b1 b2 b3 : Byte) :
    byteOf (le32 b0 b1 b2 b3) 0 = b0 ∧ byteOf (le32 b0 b1 b2 b3) 1 = b1 ∧ byteOf (le32 b0 b1 b2 b3) 2 = b2 ∧
      byteOf (le32 b0 b1 b2 b3) 3 = b3 := by
  have h0 := b0.isLt
  have h1 := b1.isLt
  have h2 := b2.isLt
  have h3 := b3.isLt
  refine ⟨?_, ?_, ?_, ?_⟩ <;> apply BitVec.eq_of_toNat_eq <;>
    rw [byteOf, BitVec.extractLsb'_toNat, le32_toNat, Nat.shiftRight_eq_div_pow] <;> omega

/-- The word that holds byte j of a byte string, at its lane (R87). -/
theorem byteOf_wordOfBytes (bytes : List Byte) (j : Nat) :
    byteOf (wordOfBytes bytes (j / 4)) (j % 4) = bytes.getD j 0 := by
  obtain ⟨e0, e1, e2, e3⟩ := byteOf_le32 (bytes.getD (4 * (j / 4)) 0) (bytes.getD (4 * (j / 4) + 1) 0)
    (bytes.getD (4 * (j / 4) + 2) 0) (bytes.getD (4 * (j / 4) + 3) 0)
  rw [wordOfBytes]
  have h : j % 4 = 0 ∨ j % 4 = 1 ∨ j % 4 = 2 ∨ j % 4 = 3 := by omega
  rcases h with h | h | h | h <;> rw [h]
  · rw [e0, show 4 * (j / 4) = j by omega]
  · rw [e1, show 4 * (j / 4) + 1 = j by omega]
  · rw [e2, show 4 * (j / 4) + 2 = j by omega]
  · rw [e3, show 4 * (j / 4) + 3 = j by omega]

theorem mem_dbufIndices (n : Nat) (i : Fin 16) : i ∈ dbufIndices n ↔ 4 * i.val < n := by simp [dbufIndices]

theorem dbufIndices_eq_take : ∀ n : Fin 65, dbufIndices n = (List.finRange 16).take ((n.val + 3) / 4) := by
  decide +kernel

/-- The Writes of a chunk carry no word. -/
theorem readWords_chunk (k : Nat) (l : List (Fin 16)) (d : Words16) :
    readWords (List.replicate k .okWrite ++ l.map fun i => .okRead d[i]) = l.map fun i => d[i] := by
  have hw : readWords (List.replicate k .okWrite) = [] := by simp [readWords]
  have hr : readWords (l.map fun i => .okRead d[i]) = l.map fun i => d[i] := by simp [readWords]
  rw [readWords, List.filterMap_append, ← readWords, ← readWords, hw, hr, List.nil_append]

/-- What an `rddata n` reads: byte j of DBUF for each j below n (R87). -/
theorem readChunk_getElem? (n k : Nat) (h : n ≤ 64) (d : Words16) (j : Fin 64) :
    (readChunk n (List.replicate k .okWrite ++ (dbufIndices n).map fun i => .okRead d[i]))[j.val]? =
      if j.val < n then some (dbufByte d j) else none := by
  rw [readChunk, readWords_chunk, List.getElem?_take]
  split
  · rename_i hj
    have e := dbufIndices_eq_take ⟨n, by omega⟩
    simp only at e
    have hlt : j.val / 4 < (n + 3) / 4 := by omega
    have h16 : j.val / 4 < 16 := by omega
    rw [lebytes_getElem?, List.getElem?_map, e, List.getElem?_take, if_pos hlt,
      List.getElem?_eq_getElem (by simpa using h16), List.getElem_finRange]
    rfl
  · rfl

theorem readChunk_length_le (n : Nat) (rs : List Response) : (readChunk n rs).length ≤ n := by
  simp [readChunk]

/-- Byte j of a block, for a j of any size. -/
def keystreamAt (x : Words16) (j : Nat) : Byte := keystreamByte x (Fin.ofNat 64 j)

/-- The line `lddata` (R87): the bytes stand in DBUF, and LEN is their number. -/
theorem ends_lddata (s : State) (bytes : List Byte) (hn : bytes.length ≤ 64) :
    ∃ t, Ends s (expandLine s.params (.lddata bytes)) t
        (List.replicate ((dbufIndices bytes.length).length + 1) .okWrite) ∧
      t.len.toNat = bytes.length ∧
      (∀ (j : Nat) (h : j < bytes.length), dbufByte t.dbuf ⟨j, by omega⟩ = bytes[j]) ∧
      t.fault = s.fault ∧ t.params = s.params ∧ t.key = s.key ∧ t.nonce = s.nonce ∧ t.ctr = s.ctr := by
  obtain ⟨t, h, e⟩ := ends_wr_dbufs (dbufIndices bytes.length) (fun i => wordOfBytes bytes i)
    ((s.setLen (BitVec.ofNat 32 bytes.length)).complete .okWrite)
  refine ⟨t, (ends_wr_len s _).trans h, ?_, fun j hj => ?_, by rw [e]; rfl, by rw [e]; rfl, by rw [e]; rfl,
    by rw [e]; rfl, by rw [e]; rfl⟩
  · rw [e]
    exact (BitVec.toNat_ofNat _ _).trans (Nat.mod_eq_of_lt (by omega))
  · have hd : t.dbuf = storeAll (fun i => wordOfBytes bytes i) (dbufIndices bytes.length) s.dbuf := by rw [e]; rfl
    have hw := getElem_storeAll (dbufIndices bytes.length) (fun i => wordOfBytes bytes i) s.dbuf ⟨j / 4, by omega⟩
    rw [if_pos ((mem_dbufIndices _ _).2 (by simp only; omega)), ← hd] at hw
    have hb : dbufByte t.dbuf ⟨j, by omega⟩ = byteOf (t.dbuf[(⟨j / 4, by omega⟩ : Fin 16)]) (j % 4) := rfl
    rw [hb, hw, byteOf_wordOfBytes, List.getD_eq_getElem?_getD, List.getElem?_eq_getElem hj, Option.getD_some]

/-- The line `cmd STEP` on a chunk that fits (43_keystream.md R166). -/
theorem ends_cmd_step (s : State) (hf : s.fault = false) (hl : s.len.toNat ≤ 64) :
    ∃ t, Ends s [commandWrite s.params (encode .step)] t [.okWrite] ∧
      t.dbuf = xorBytes (stepBlock s) s.len.toNat hl s.dbuf ∧
      t.fault = false ∧ t.params = s.params ∧ t.key = s.key ∧ t.nonce = s.nonce ∧ t.ctr = add32 s.ctr 1 := by
  refine ⟨_, ends_cmd (t := (((s.setX (stepBlock s)).setSnap (initialMatrix s.key s.nonce s.ctr)).setDbuf
    (xorBytes (stepBlock s) s.len.toNat hl s.dbuf)).setCtr (add32 s.ctr 1)) hf rfl (by simp) ?_, ?_⟩
  · intro rest
    rw [exec_step (s := s.setPending rest) (by simpa using hf) (by simpa using hl)]
    simp only [State.setX, State.setSnap, State.setDbuf, State.setCtr, State.setPending, stepBlock]
  · simp [hf]

/-- The line `rddata` (R87): the first n bytes of DBUF, and nothing changed. -/
theorem ends_rddata (s : State) (n : Nat) :
    ∃ t, Ends s (expandLine s.params (.rddata n)) t ((dbufIndices n).map fun i => .okRead s.dbuf[i]) ∧
      t = { s with pc := t.pc, responses := t.responses } := ends_rd_dbufs _ _

/-- The line `chunk` (R87): the chunk comes back XORed with the block of the counter it found, and the counter moves on
by 1. -/
theorem ends_chunk (s : State) (hf : s.fault = false) (bytes : List Byte) (hn : bytes.length ≤ 64) :
    ∃ t rs, Ends s (expandLine s.params (.chunk bytes)) t rs ∧
      lineOutput (.chunk bytes) rs = bytes.mapIdx (fun j b => b ^^^ keystreamAt (stepBlock s) j) ∧
      t.fault = false ∧ t.params = s.params ∧ t.key = s.key ∧ t.nonce = s.nonce ∧ t.ctr = add32 s.ctr 1 := by
  obtain ⟨u, hu, ul, ud, uf, up, uk, un, uc⟩ := ends_lddata s bytes hn
  obtain ⟨v, hv, vd, vf, vp, vk, vn, vc⟩ := ends_cmd_step u (uf.trans hf) (by omega)
  obtain ⟨t, ht, e⟩ := ends_rddata v bytes.length
  rw [up] at hv
  rw [vp, up] at ht
  refine ⟨t, _, hu.trans (hv.trans ht), ?_, by rw [e]; exact vf, by rw [e]; exact vp.trans up,
    by rw [e]; exact vk.trans uk, by rw [e]; exact vn.trans un, by rw [e, ← uc]; exact vc⟩
  have hb : stepBlock u = stepBlock s := by rw [stepBlock, stepBlock, uk, un, uc]
  rw [← List.append_assoc, ← List.replicate_succ', lineOutput]
  apply List.ext_getElem?
  intro j
  rw [List.getElem?_mapIdx]
  by_cases hj : j < bytes.length
  · have h := readChunk_getElem? bytes.length ((dbufIndices bytes.length).length + 2) hn v.dbuf ⟨j, by omega⟩
    have hx := dbufByte_xorBytes (stepBlock u) u.dbuf u.len.toNat (by omega) ⟨j, by omega⟩
    rw [if_pos hj] at h
    rw [if_pos (by simp only; omega), ← vd, ud j hj, hb] at hx
    have hm : (⟨j, by omega⟩ : Fin 64) = Fin.ofNat 64 j := Fin.ext (Nat.mod_eq_of_lt (by omega)).symm
    rw [h, hx, List.getElem?_eq_getElem hj, Option.map_some, keystreamAt, ← hm]
  · rw [List.getElem?_eq_none (l := bytes) (by omega), Option.map_none, List.getElem?_eq_none]
    exact (readChunk_length_le _ _).trans (by omega)

/-! ### The program `process` (43_keystream.md R168) -/

/-- The lines of a program, sent to `s`, leave `t` and hand the host `out`, whatever lines follow. -/
structure Runs (s : State) (lines : List HostLine) (t : State) (out : List Byte) : Prop where
  ends : ∃ rs, Ends s (lines.flatMap (expandLine s.params)) t rs ∧
    ∀ more qs, programOutput s.params (lines ++ more) (rs ++ qs) = out ++ programOutput s.params more qs
  params : t.params = s.params

theorem runs_nil (s : State) : Runs s [] s [] := ⟨⟨[], ends_nil s, fun _ _ => rfl⟩, rfl⟩

theorem runs_one {s t : State} {l : HostLine} {rs : List Response} (h : Ends s (expandLine s.params l) t rs)
    (hp : t.params = s.params) : Runs s [l] t (lineOutput l rs) := by
  refine ⟨⟨rs, by simpa using h, fun more qs => ?_⟩, hp⟩
  have e : programOutput s.params ([l] ++ more) (rs ++ qs) =
      lineOutput l ((rs ++ qs).take (expandLine s.params l).length) ++
        programOutput s.params more ((rs ++ qs).drop (expandLine s.params l).length) := rfl
  rw [e, ← h.each, List.take_left, List.drop_left]

theorem Runs.trans {s t u : State} {l m : List HostLine} {a b : List Byte} (h : Runs s l t a) (k : Runs t m u b) :
    Runs s (l ++ m) u (a ++ b) := by
  obtain ⟨rs, hl, ha⟩ := h.ends
  obtain ⟨qs, hm, hb⟩ := k.ends
  rw [h.params] at hm hb
  refine ⟨⟨rs ++ qs, by rw [List.flatMap_append]; exact hl.trans hm, fun more ps => ?_⟩, k.params.trans h.params⟩
  rw [List.append_assoc, List.append_assoc, ha, hb, List.append_assoc]

/-- What the host gets of a program it sends alone. -/
theorem Runs.outputFrom {s t : State} {lines : List HostLine} {out : List Byte} (h : Runs s lines t out) :
    outputFrom s lines = some out := by
  obtain ⟨rs, hl, ho⟩ := h.ends
  have hs := hl.served []
  have e : (s.withProgram lines).pending.length = (lines.flatMap (expandLine s.params)).length := by
    simp [State.withProgram]
  rw [List.append_nil] at hs
  have hr : Host.Core.run core (s.withProgram lines).pending.length (s.withProgram lines) =
      .next (t.setPending []) := by rw [e]; exact hs
  have hd : (t.setPending []).responses.drop s.responses.length = rs := by
    rw [State.setPending_responses, hl.answered, List.drop_left]
  have hout := ho [] []
  rw [List.append_nil, List.append_nil] at hout
  rw [Machine.outputFrom, hr]
  simp only [hd, hout]
  simp [programOutput]

/-- The registers a key and a nonce are loaded into (R87). -/
def keyOf (key : List Byte) : KeyWords := Vector.ofFn fun i : Fin 8 => wordOfBytes key i

def nonceOf (nonce : List Byte) : NonceWords := Vector.ofFn fun i : Fin 3 => wordOfBytes nonce i

/-- Byte j of the keystream of a message: the block of the counter C0 + j div 64 (R169), at j mod 64. -/
def messageKeystream (key : KeyWords) (nonce : NonceWords) (ctr : Word) (j : Nat) : Byte :=
  keystreamAt (keystreamBlock key nonce (ctr + BitVec.ofNat 32 (j / 64))) (j % 64)

/-- The first block of a message, and the blocks after it, which are those of the next counter. -/
theorem messageKeystream_low (key : KeyWords) (nonce : NonceWords) (ctr : Word) {j : Nat} (hj : j < 64) :
    messageKeystream key nonce ctr j = keystreamAt (keystreamBlock key nonce ctr) j := by
  rw [messageKeystream, Nat.div_eq_of_lt hj, Nat.mod_eq_of_lt hj, BitVec.add_zero]

theorem messageKeystream_add (key : KeyWords) (nonce : NonceWords) (ctr : Word) (j : Nat) :
    messageKeystream key nonce ctr (j + 64) = messageKeystream key nonce (add32 ctr 1) j := by
  have e : ctr + BitVec.ofNat 32 (j / 64 + 1) = add32 ctr 1 + BitVec.ofNat 32 (j / 64) := by
    rw [add32, BitVec.ofNat_add, BitVec.add_assoc, BitVec.add_comm (BitVec.ofNat 32 (j / 64))]
    rfl
  rw [messageKeystream, messageKeystream, Nat.add_mod_right, Nat.add_div_right _ (by decide), e]

theorem runs_ldkey (s : State) (key : List Byte) :
    ∃ t, Runs s [.ldkey key] t [] ∧ t.fault = s.fault ∧ t.params = s.params ∧ t.key = keyOf key := by
  obtain ⟨t, h, e⟩ := ends_wr_keys (List.finRange 8) (fun i => wordOfBytes key i) s
  have hp : t.params = s.params := by rw [e]
  refine ⟨t, runs_one (l := .ldkey key) h hp, by rw [e], hp, ?_⟩
  rw [e]
  apply Vector.ext
  intro j hj
  have := getElem_storeAll (List.finRange 8) (fun i => wordOfBytes key i) s.key ⟨j, hj⟩
  rw [if_pos (List.mem_finRange _)] at this
  simpa [keyOf] using this

theorem runs_ldnonce (s : State) (nonce : List Byte) :
    ∃ t, Runs s [.ldnonce nonce] t [] ∧ t.fault = s.fault ∧ t.params = s.params ∧ t.key = s.key ∧
      t.nonce = nonceOf nonce := by
  obtain ⟨t, h, e⟩ := ends_wr_nonces (List.finRange 3) (fun i => wordOfBytes nonce i) s
  have hp : t.params = s.params := by rw [e]
  refine ⟨t, runs_one (l := .ldnonce nonce) h hp, by rw [e], hp, by rw [e], ?_⟩
  rw [e]
  apply Vector.ext
  intro j hj
  have := getElem_storeAll (List.finRange 3) (fun i => wordOfBytes nonce i) s.nonce ⟨j, hj⟩
  rw [if_pos (List.mem_finRange _)] at this
  simpa [nonceOf] using this

/-- A message is its first 64 bytes under the first block, and the rest under the blocks of the next counter on. -/
theorem mapIdx_messageKeystream (key : KeyWords) (nonce : NonceWords) (ctr : Word) (data : List Byte) :
    data.mapIdx (fun j b => b ^^^ messageKeystream key nonce ctr j) =
      (data.take 64).mapIdx (fun j b => b ^^^ keystreamAt (keystreamBlock key nonce ctr) j) ++
        (data.drop 64).mapIdx fun j b => b ^^^ messageKeystream key nonce (add32 ctr 1) j := by
  apply List.ext_getElem?
  intro j
  rw [List.getElem?_append]
  simp only [List.length_mapIdx, List.length_take, List.getElem?_mapIdx, List.getElem?_take, List.getElem?_drop]
  split
  · rename_i h
    rw [if_pos (by omega), messageKeystream_low _ _ _ (by omega : j < 64)]
  · rename_i h
    by_cases hj : j < data.length
    · have e : j = (j - min 64 data.length) + 64 := by omega
      rw [show 64 + (j - min 64 data.length) = j by omega]
      conv => lhs; rw [e, messageKeystream_add, ← e]
    · rw [List.getElem?_eq_none (by omega), List.getElem?_eq_none (by omega), Option.map_none, Option.map_none]

/-- The chunks of a message, one after the other: each byte comes back XORed with its keystream byte. -/
theorem runs_chunks (n : Nat) (data : List Byte) (hn : n = (data.length + 63) / 64) (s : State)
    (hf : s.fault = false) :
    ∃ t, Runs s ((List.range n).map fun k => .chunk (chunkOf data k)) t
        (data.mapIdx fun j b => b ^^^ messageKeystream s.key s.nonce s.ctr j) ∧ t.fault = false := by
  induction n generalizing data s with
  | zero =>
    have hd : data = [] := List.eq_nil_of_length_eq_zero (by omega)
    subst hd
    exact ⟨s, runs_nil s, hf⟩
  | succ n ih =>
    have h0 : chunkOf data 0 = data.take 64 := by simp [chunkOf]
    obtain ⟨t, rs, ht, ho, tf, tp, tk, tn, tc⟩ := ends_chunk s hf (data.take 64) (by simp)
    obtain ⟨u, hu, uf⟩ := ih (data.drop 64) (by simp; omega) t tf
    refine ⟨u, ?_, uf⟩
    have hl : (List.range (n + 1)).map (fun k => HostLine.chunk (chunkOf data k)) =
        [.chunk (data.take 64)] ++ (List.range n).map fun k => .chunk (chunkOf (data.drop 64) k) := by
      rw [List.range_succ_eq_map, List.map_cons, List.map_map, h0]
      simp only [List.cons_append, List.nil_append, List.cons.injEq, true_and]
      apply List.map_congr_left
      intro k _
      simp only [Function.comp, chunkOf, List.drop_drop]
      rw [show 64 * k.succ = 64 + 64 * k by omega]
    have hb := mapIdx_messageKeystream s.key s.nonce s.ctr data
    have hr := (runs_one ht tp).trans hu
    rw [ho, tk, tn, tc, stepBlock, ← hb, ← hl] at hr
    exact hr

/-- What `encrypt` and `decrypt` give, from any block without a fault: each byte of the message XORed with its keystream
byte (R168, R172). -/
theorem encrypt_eq (s : State) (hf : s.fault = false) (data key nonce : List Byte) (c : Nat)
    (hc : s.params.restrictCtr = false ∨ (BitVec.ofNat 32 c).toNat ≤ 1) :
    encrypt s data key nonce c = some (data.mapIdx fun j b =>
      b ^^^ messageKeystream (keyOf key) (nonceOf nonce) (BitVec.ofNat 32 c) j) := by
  obtain ⟨t, ht, tf, tp, tk⟩ := runs_ldkey s key
  obtain ⟨u, hu, uf, up, uk, un⟩ := runs_ldnonce t nonce
  have hw := runs_one (l := .ldctr c) (ends_wr_ctr u (BitVec.ofNat 32 c) (by rw [up, tp]; exact hc)) rfl
  obtain ⟨v, hv, vf⟩ := runs_chunks _ data rfl ((u.setCtr (BitVec.ofNat 32 c)).complete .okWrite)
    (by simp [uf, tf, hf])
  have hs := runs_one (l := .cmd .scrub)
    (ends_cmd (s := v) (i := .scrub) (t := v.zeroSecrets) vf rfl (by simp) fun rest => by
      rw [exec_scrub]; simp only [State.zeroSecrets, State.setPending, State.setKey, State.setNonce, State.setCtr,
        State.setLen, State.setDbuf, State.setX, State.setSnap]) (by simp)
  have h := (ht.trans (hu.trans (hw.trans (hv.trans hs)))).outputFrom
  rw [State.complete_key, State.setCtr_key, State.complete_nonce, State.setCtr_nonce, State.complete_ctr,
    State.setCtr_ctr, uk, tk, un] at h
  exact h.trans (congrArg some (by simp [lineOutput]))

theorem decrypt_eq_encrypt : decrypt = encrypt := rfl

end Sys2Proof.Machine
end

