-- ==== Sys2Proof/Tests/Slice0.lean ====
section
/-! SUPPORT. The model's own tests and the witnesses of the statements' hypotheses. Every expected value is
95_test_vectors.md's or is written out from the encodings of 30_encoding.md; none is the model's own answer. -/

namespace Sys2Proof.Machine.Tests

open Sys2Proof.Machine.Claim

/-! ### Small states -/

/-- KEY, NONCE and CTR of V1.2, before INIT. -/
def keyed : State :=
  { State.reset with
    key := #v[0x03020100, 0x07060504, 0x0b0a0908, 0x0f0e0d0c, 0x13121110, 0x17161514, 0x1b1a1918, 0x1f1e1d1c]
    nonce := #v[0x09000000, 0x4a000000, 0x00000000]
    ctr := 1 }

/-- X after INIT in V1.2. -/
def matrix12 : Words16 :=
  #v[0x61707865, 0x3320646e, 0x79622d32, 0x6b206574, 0x03020100, 0x07060504, 0x0b0a0908, 0x0f0e0d0c,
    0x13121110, 0x17161514, 0x1b1a1918, 0x1f1e1d1c, 0x00000001, 0x09000000, 0x4a000000, 0x00000000]

/-- X after BLOCK in V3.1, the block of the source's section 8. -/
def block31 : Words16 :=
  #v[0xe4e7f110, 0x15593bd1, 0x1fdd0f50, 0xc47120a3, 0xc7f4d1c7, 0x0368c033, 0x9aaa2204, 0x4e6cd4c3,
    0x466482d2, 0x09aa9f07, 0x05d7c214, 0xa2028bd9, 0xd19c12b5, 0xb94e16de, 0xe883d0cb, 0x4e3c50a2]

/-- V1.2 after INIT. -/
def ready : State := { keyed with x := matrix12 }

/-- V3.1 after BLOCK. -/
def blocked : State := { keyed with x := block31, snap := matrix12 }

/-- A state with a fault recorded: V6.6's first. -/
def faulted : State := { ready with fault := true, fcode := 2, finfo := 0x00210002 }

/-- The window is not at address 0, and host writes to CTR are restricted. -/
def elsewhere : Params := { window := 0x40000, restrictCtr := true }

/-- Sixteen words: the first few, and one word for the rest. -/
def padded (first : List Word) (fill : Word) : Words16 := Vector.ofFn fun i : Fin 16 => first.getD i fill

/-- One input to come. -/
def given (s : State) (i : Input) : State := { s with pending := [i] }

/-- One transaction to come. -/
def asked (s : State) (x : Transaction) : State := given s (.txn x)

/-- The register a command leaves in a state. -/
def after (f : State → α) (i : Instr) (s : State) : Option α := (nextState (exec i s)).map f

/-- STATUS and FINFO, the response, and X, after one transaction from reset with P_RESTRICT_CTR = r. -/
def served (r : Bool) (x : Transaction) : Option (Word × Word × List Response) :=
  (nextState (step (asked (State.resetWith { window := 0, restrictCtr := r }) x))).map fun t =>
    (statusWord t, t.finfo, t.responses)

/-! ### Decoding: a word of every command, from the encodings of 30_encoding.md R80 and R82 -/

theorem test_decode_nop : decode 0b000000000000000000000000_00000000 = .ok .nop := by decide

theorem test_decode_init : decode 0b000000000000000000000000_00000001 = .ok .init := by decide

theorem test_decode_colround : decode 0b000000000000000000000000_00000011 = .ok .colround := by decide

theorem test_decode_diaground : decode 0b000000000000000000000000_00000100 = .ok .diaground := by decide

theorem test_decode_dround : decode 0b000000000000000000000000_00000101 = .ok .dround := by decide

theorem test_decode_snap : decode 0b000000000000000000000000_00000110 = .ok .snap := by decide

theorem test_decode_feedfwd : decode 0b000000000000000000000000_00000111 = .ok .feedfwd := by decide

theorem test_decode_block : decode 0b000000000000000000000000_00001000 = .ok .block := by decide

theorem test_decode_xorks : decode 0b000000000000000000000000_00001001 = .ok .xorks := by decide

theorem test_decode_ctrinc : decode 0b000000000000000000000000_00001010 = .ok .ctrinc := by decide

theorem test_decode_step : decode 0b000000000000000000000000_00001011 = .ok .step := by decide

theorem test_decode_scrub : decode 0b000000000000000000000000_00001100 = .ok .scrub := by decide

/-- Four different indices, so that no field can stand for another. -/
theorem test_decode_qr : decode 0b00000000_1111_0110_1001_0011_00000010 = .ok (.qr 3 9 6 15) := by decide

theorem test_decode_table_word :
    decodeTableWord 32 0x00C84002 = some (.qr 0 4 8 12) ∧ decodeTableWord 32 0x01C84002 = none := by decide

/-- V6.2, V6.3, V2.11 and the ends of the illegal opcodes (R84). -/
theorem test_decode_rejects :
    decode 0x00000100 = .error .reservedBitsN ∧ decode 0x0000000D = .error .opcodeOutOfMap ∧
    decode 0xFFFFFFFF = .error .opcodeOutOfMap ∧ decode 0x01C84002 = .error .reservedBitsQ ∧
    decode 0x8000000C = .error .reservedBitsN := by decide

/-! ### WellFormed: an ill-formed line for every check (30_encoding.md R86, R87) -/

theorem test_wr_value_too_wide : (HostLine.wr (.named .len) 0x100000000).wellFormed = false := by decide
theorem test_wr_offset_outside : (HostLine.wr (.offset 0x1000) 0).wellFormed = false := by decide
theorem test_rd_offset_outside : (HostLine.rd (.offset 0x1000)).wellFormed = false := by decide
theorem test_rd_annotation_too_wide : (HostLine.rdAnnotated (.named .ctr) 0x100000000).wellFormed = false := by decide
theorem test_rd_annotated_offset_outside : (HostLine.rdAnnotated (.offset 0x1000) 0).wellFormed = false := by decide
theorem test_cmd_needs_format_n : (HostLine.cmd (.qr 0 1 2 3)).wellFormed = false := by decide
theorem test_qr_index_a : (HostLine.cmdQr 16 1 2 3).wellFormed = false := by decide
theorem test_qr_index_b : (HostLine.cmdQr 0 16 2 3).wellFormed = false := by decide
theorem test_qr_index_c : (HostLine.cmdQr 0 1 16 3).wellFormed = false := by decide
theorem test_qr_index_d : (HostLine.cmdQr 0 1 2 16).wellFormed = false := by decide
theorem test_wr_size : (HostLine.wrSized 4 0x020 0).wellFormed = false := by decide
theorem test_wr_sized_offset : (HostLine.wrSized 1 0x1000 0).wellFormed = false := by decide
theorem test_wr_sized_value : (HostLine.wrSized 8 0x080 0x100000000).wellFormed = false := by decide
theorem test_rd_size : (HostLine.rdSized 4 0x020).wellFormed = false := by decide
theorem test_rd_sized_offset : (HostLine.rdSized 2 0x1000).wellFormed = false := by decide
theorem test_ldkey_length : (HostLine.ldkey (List.replicate 31 0)).wellFormed = false := by decide
theorem test_ldnonce_length : (HostLine.ldnonce (List.replicate 13 0)).wellFormed = false := by decide
theorem test_ldctr_too_wide : (HostLine.ldctr 0x100000000).wellFormed = false := by decide
theorem test_lddata_length : (HostLine.lddata (List.replicate 65 0)).wellFormed = false := by decide
theorem test_rddata_length : (HostLine.rddata 65).wellFormed = false := by decide
theorem test_chunk_length : (HostLine.chunk (List.replicate 65 0)).wellFormed = false := by decide

theorem test_lines_at_their_limits :
    [HostLine.wr (.offset 0xFFC) 0xFFFFFFFF, .cmdQr 15 15 15 15, .wrSized 8 0xFFF 0, .rdSized 1 0,
     .ldkey (List.replicate 32 0), .ldnonce (List.replicate 12 0), .chunk (List.replicate 64 0),
     .rddata 64].all HostLine.wellFormed = true := by decide

/-! ### The commands, on the vectors of 95_test_vectors.md -/

/-- V6.1. -/
theorem test_nop : after id .nop ready = some ready := by decide +kernel

/-- V1.2. -/
theorem test_init : after State.x .init keyed = some matrix12 := by decide +kernel

/-- V1.4: every register word all ones. -/
theorem test_init_ones :
    after State.x .init
      { State.reset with key := Vector.replicate 8 0xffffffff, nonce := Vector.replicate 3 0xffffffff, ctr := 0xffffffff } =
    some (padded [0x61707865, 0x3320646e, 0x79622d32, 0x6b206574] 0xffffffff) := by decide +kernel

/-- V2.1. -/
theorem test_qr : after State.x (.qr 0 4 8 12) ready = some
  #v[0xabbaa25c, 0x3320646e, 0x79622d32, 0x6b206574, 0x3a465196, 0x07060504, 0x0b0a0908, 0x0f0e0d0c,
    0x6b3ca454, 0x17161514, 0x1b1a1918, 0x1f1e1d1c, 0xdec62ed2, 0x09000000, 0x4a000000, 0x00000000] := by decide +kernel

/-- V2.9: the first and the last index are equal (90_conflicts.md C2). -/
theorem test_qr_alias :
    after id (.qr 0 1 2 0) ready = some { ready with fault := true, fcode := 2, finfo := 0x00021002 } := by
  decide +kernel

/-- V2.2. -/
theorem test_colround : after State.x .colround ready = some
  #v[0xabbaa25c, 0x1efa51ea, 0x7354fbdf, 0x83d2dc69, 0x3a465196, 0x1c7e64f6, 0xb12fb628, 0xf05b6976,
    0x6b3ca454, 0x08eb14b1, 0xbf8a9ac9, 0xe444df3b, 0xdec62ed2, 0x8862cc77, 0x6e35b345, 0x52a647f1] := by decide +kernel

/-- V2.3. -/
theorem test_diaground : after State.x .diaground ready = some
  #v[0xc0bf2761, 0x334f55ef, 0x7268fe63, 0xf1a5ce5c, 0x7be812e6, 0x4d18599b, 0x12e46e98, 0x1bb0f6a5,
    0xa3cfa5c8, 0x4f74b7cd, 0x6ed2994b, 0xc50120a4, 0x386bc55e, 0x567f1348, 0xd1ea7e97, 0xd64f17bd] := by decide +kernel

/-- V2.4. -/
theorem test_dround : after State.x .dround ready = some
  #v[0xcd52e917, 0x85ab03b4, 0xb3457395, 0xf96de7dd, 0xc4b7cd22, 0x5c2e187a, 0xc95eb461, 0x316c801a,
    0x7bf7d740, 0x7eddd644, 0xf1a1bdf5, 0x761246ca, 0x6b0d58a3, 0x6798471a, 0xd737f167, 0xf173888d] := by decide +kernel

/-- V3.10: SNAP takes what X holds. -/
theorem test_snap : after State.snap .snap { blocked with snap := Vector.replicate 16 0 } = some block31 := by decide +kernel

/-- V3.9, after a SNAP. -/
theorem test_feedfwd : after State.x .feedfwd { ready with snap := matrix12 } = some
  #v[0xc2e0f0ca, 0x6640c8dc, 0xf2c45a64, 0xd640cae8, 0x06040200, 0x0e0c0a08, 0x16141210, 0x1e1c1a18,
    0x26242220, 0x2e2c2a28, 0x36343230, 0x3e3c3a38, 0x00000002, 0x12000000, 0x94000000, 0x00000000] := by decide +kernel

/-- V3.1. -/
theorem test_block : after (fun t => (t.x, t.snap)) .block ready = some (block31, matrix12) := by decide +kernel

/-- V4.4: five bytes. -/
theorem test_xorks :
    after State.dbuf .xorks { blocked with len := 5, dbuf := Vector.replicate 16 0xffffffff } =
      some (padded [0x1b180eef, 0xffffff2e] 0xffffffff) := by decide +kernel

/-- V4.5. -/
theorem test_xorks_long :
    after id .xorks { blocked with len := 65 } =
      some { blocked with len := 65, fault := true, fcode := 3, finfo := 0x00000009 } := by decide +kernel

/-- V5.2. -/
theorem test_ctrinc :
    after (fun t => (t.ctr, t.nonce)) .ctrinc { State.reset with ctr := 0xffffffff, nonce := #v[5, 6, 7] } =
      some (0, #v[5, 6, 7]) := by decide +kernel

/-- V5.4. -/
theorem test_step :
    after (fun t => (t.snap[12], t.dbuf, t.ctr)) .step { keyed with ctr := 0xffffffff, len := 4 } =
      some (0xffffffff, padded [0xb84129ff] 0, 0) := by decide +kernel

/-- V5.6. -/
theorem test_step_long :
    after id .step { keyed with len := 65 } =
      some { keyed with len := 65, fault := true, fcode := 3, finfo := 0x0000000b } := by decide +kernel

/-- V6.5, and V6.6's last command: SCRUB keeps the record. -/
theorem test_scrub :
    after id .scrub { blocked with dbuf := Vector.replicate 16 1, len := 9 } = some State.reset ∧
    after id .scrub faulted = some { State.reset with fault := true, fcode := 2, finfo := 0x00210002 } := by
  decide +kernel

/-! ### The bus and the record, on the vectors of V6 -/

/-- V6.8 to V6.12. -/
theorem test_refused_accesses :
    served false (.write 0x020 1 0xAA) = some (0x00000501, 0x80010020, [.err]) ∧
    served false (.read 0x022 4) = some (0x00000501, 0x00040022, [.err]) ∧
    served false (.write 0x100 4 0) = some (0x00000501, 0x80040100, [.err]) ∧
    served false (.read 0x014 4) = some (0x00000501, 0x00040014, [.err]) ∧
    served false (.write 0x080 8 0) = some (0x00000501, 0x80080080, [.err]) := by decide +kernel

/-- V6.2, V6.17, V6.18, V6.20. -/
theorem test_served_accesses :
    served false (.write 0x000 4 0x100) = some (0x00000101, 0x00000100, [.okWrite]) ∧
    served false (.read 0x000 4) = some (0, 0, [.okRead 0]) ∧
    served true (.write 0x010 4 2) = some (0x00010401, 0x00000002, [.okWrite]) ∧
    served false (.write 0x010 4 2) = some (0, 0, [.okWrite]) := by decide +kernel

/-- V2.12: decode is checked before the indices (60_exceptions.md R196). -/
theorem test_decode_before_alias :
    served false (.write 0x000 4 0x80111102) = some (0x00000101, 0x80111102, [.okWrite]) := by decide +kernel

/-- V6.7: a word that is not exactly SCRUB is ignored while FAULT = 1. -/
theorem test_frozen_word :
    (nextState (step (asked faulted (.write 0x000 4 0x0000010C)))).map (fun t => (t.key, t.finfo)) =
      some (keyed.key, 0x00210002) := by decide +kernel

/-- 70_reset_and_hazards.md R210. -/
theorem test_reset : (nextState (step (given faulted .reset))).map id = some State.reset := by decide +kernel

/-- The first step after withFetchWord runs the word (V6.3's word records it; V5.1's adds 1). -/
theorem test_fetch_word :
    (nextState (step (State.reset.withFetchWord 32 0x0000000D))).map State.finfo = some 0x0000000D ∧
    (nextState (step (State.reset.withFetchWord 32 0x0000000A))).map State.ctr = some 1 := by decide +kernel

/-- V4.8: an `rddata 6` takes six bytes of the words read, in order (R87). -/
theorem test_read_chunk :
    lineOutput (.rddata 6) [.okRead 0xe4e7f110, .okRead 0x15593bd1] = [0x10, 0xf1, 0xe7, 0xe4, 0xd1, 0x3b] := by
  decide

/-- Each line of a program takes the responses to its own transactions (R87, R168). -/
theorem test_program_output :
    programOutput Params.default [.ldctr 1, .chunk [7], .rddata 1]
      [.okWrite, .okWrite, .okWrite, .okWrite, .okRead 0xe4e7f110, .okRead 0x15593bd1] = [0x10, 0xd1] := by
  decide +kernel

/-- R168: the first chunk of `process` on 70 bytes, and its last, which is 6 bytes long (P3). -/
theorem test_process_chunks :
    (process (List.replicate 70 0) [] [] 1).length = 6 ∧ chunkOf (List.replicate 70 0) 1 = List.replicate 6 0 := by
  decide +kernel

/-! ### Witnesses: for each statement with hypotheses, a state and operands that meet all of them together -/

/-- A CMD write of a word to a block elsewhere in the host's address space. -/
def wrote (s : State) (w : Word) : State := asked s (.write s.params.pBase 4 w)

/-- `ready` in a window elsewhere. -/
def moved : State := { ready with params := elsewhere }

/-- A matrix with the words of the source's vector (V0.2) at the indices of QR 4, 5, 6, 7. -/
def vectorMatrix : Words16 :=
  #v[0, 0, 0, 0, 0x11111111, 0x01020304, 0x9b8d6f43, 0x01234567, 0, 0, 0, 0, 0, 0, 0, 0]

theorem witness_WordArithmeticWraps : (0 < 1 ∧ 1 < 32) ∧ (0 < 31 ∧ 31 < 32) := by decide

theorem witness_EncodeOfDecode : decode 0x00FB7302 = .ok (.qr 3 7 11 15) := by decide

theorem witness_DecoderFollowsOpcodeTable :
    opcodeRow (.qr 3 7 11 15) ∈ opcodeTable ∧ (opcodeRow (.qr 0 0 0 0)).selects 0x00FB7302 = true := by decide

theorem witness_IllegalWordsFault :
    moved.fault = false ∧ decode 0x0000000D = .error .opcodeOutOfMap ∧ decode 0x00000100 = .error .reservedBitsN ∧
    decode 0x01000002 = .error .reservedBitsQ ∧
    NextInput (wrote moved 0x0000000D) (.txn (.write moved.params.pBase 4 0x0000000D)) [] :=
  ⟨rfl, by decide, by decide, by decide, rfl⟩

theorem witness_StepRunsDecodedCommand :
    decode 0x00FB7302 = .ok (.qr 3 7 11 15) ∧
    NextInput (wrote moved 0x00FB7302) (.txn (.write moved.params.pBase 4 0x00FB7302)) [] := ⟨by decide, rfl⟩

/-- Two states with different secrets, about to scrub them. -/
theorem witness_ScrubHidesSecrets :
    SameRecord (wrote blocked 0x0000000C) (wrote State.reset 0x0000000C) ∧
    SameSurroundings (wrote blocked 0x0000000C) (wrote State.reset 0x0000000C) ∧ blocked.key ≠ State.reset.key ∧
    NextInput (wrote blocked 0x0000000C) (.txn (.write blocked.params.pBase 4 0x0000000C)) [] :=
  ⟨⟨rfl, rfl, rfl⟩, ⟨rfl, rfl, rfl, rfl⟩, by decide +kernel, rfl⟩

theorem witness_InitBuildsMatrix : keyed.fault = false := rfl

/-- Commands that leave KEY, NONCE and CTR, run after an INIT: they change X, and none faults. -/
theorem witness_InitIsIdempotent : keyed.fault = false ∧
    (∀ i ∈ [Instr.snap, .colround, .feedfwd], i ≠ .ctrinc ∧ i ≠ .step ∧ i ≠ .scrub) ∧
    ∃ m, runCommands [.snap, .colround, .feedfwd] ready = .next m ∧ m.fault = false ∧ m.x ≠ ready.x :=
  ⟨rfl, by decide, _, rfl, rfl, by decide +kernel⟩

theorem witness_QrChangesItsFourWords : ready.fault = false ∧ ([7, 6, 5, 4] : List (Fin 16)).Nodup :=
  ⟨rfl, by decide⟩

/-- Each pair of equal indices. -/
theorem witness_QrAliasFaults : ready.fault = false ∧
    ∀ l ∈ ([[0, 0, 1, 2], [0, 1, 0, 2], [0, 1, 2, 0], [0, 1, 1, 2], [0, 1, 2, 1], [0, 1, 2, 2]] : List (List (Fin 16))),
      ¬ l.Nodup := ⟨rfl, by decide⟩

theorem witness_QuarterRoundVectorSteps : ([4, 5, 6, 7] : List (Fin 16)).Nodup ∧
    quad vectorMatrix 4 5 6 7 = (0x11111111, 0x01020304, 0x9b8d6f43, 0x01234567) := by decide +kernel

theorem witness_ColroundMixesColumns : ready.fault = false := rfl

theorem witness_DiagroundMixesDiagonals : ready.fault = false := rfl

theorem witness_DroundIsColumnThenDiagonal : ready.fault = false := rfl

/-- V2.6's order of the columns. -/
theorem witness_RoundOrderIsImmaterial : ready.fault = false ∧
    [Instr.qr 3 7 11 15, .qr 2 6 10 14, .qr 1 5 9 13, .qr 0 4 8 12].Perm columnCommands ∧
    [Instr.qr 3 4 9 14, .qr 0 5 10 15, .qr 2 7 8 13, .qr 1 6 11 12].Perm diagonalCommands :=
  ⟨rfl, by decide, by decide⟩

theorem witness_RoundsAreBijections : ready.fault = false ∧
    ∃ a b c d : Fin 16, [a, b, c, d].Nodup ∧ Instr.qr 7 6 5 4 = .qr a b c d :=
  ⟨rfl, 7, 6, 5, 4, by decide, rfl⟩

theorem witness_SnapCopiesMatrix : ready.fault = false := rfl

theorem witness_FeedfwdAddsSnapshot : blocked.fault = false := rfl

theorem witness_BlockIsItsCommandSequence : ready.fault = false := rfl

/-- The same matrix beside different keys. -/
theorem witness_BlockDependsOnMatrixOnly :
    ready.fault = false ∧ { State.reset with x := matrix12 }.fault = false ∧
    { State.reset with x := matrix12 }.x = ready.x := ⟨rfl, rfl, rfl⟩

theorem witness_ZeroMatrixIsFixed : keyed.fault = false ∧ keyed.x = Vector.replicate 16 0 ∧
    ∃ a b c d : Fin 16, [a, b, c, d].Nodup ∧ Instr.qr 0 1 2 3 = .qr a b c d :=
  ⟨rfl, rfl, 0, 1, 2, 3, by decide, rfl⟩

theorem witness_XorksXorsFirstBytes : { blocked with len := 64 }.fault = false ∧
    { blocked with len := 64 }.len.toNat ≤ 64 ∧ blocked.len.toNat ≤ 64 := by decide

theorem witness_XorksTwiceRestores :
    { blocked with len := 5 }.fault = false ∧ { blocked with len := 5 }.len.toNat ≤ 64 := by decide

/-- The shortest length too long, and the longest. -/
theorem witness_LongChunkFaults : blocked.fault = false ∧ 64 < { blocked with len := 65 }.len.toNat ∧
    64 < { blocked with len := 0xFFFFFFFF }.len.toNat := by decide

theorem witness_CtrincWraps : { ready with ctr := 0xFFFFFFFF }.fault = false := rfl

theorem witness_StepIsItsCommandSequence : keyed.fault = false ∧ { keyed with len := 64 }.len.toNat ≤ 64 ∧
    64 < { keyed with len := 65 }.len.toNat := by decide

theorem witness_StepProcessesOneChunk : keyed.fault = false ∧ { keyed with len := 64 }.len.toNat ≤ 64 := by decide

theorem witness_ChunkRoundTrip : keyed.fault = false ∧ { keyed with len := 6 }.len.toNat ≤ 64 := by decide

/-- Two chunks of different data. -/
theorem witness_KeystreamIsIndependentOfData :
    let s : State := { keyed with len := 64 }
    let s' : State := { keyed with len := 64, dbuf := Vector.replicate 16 1 }
    s.fault = false ∧ s'.fault = false ∧ s.len.toNat ≤ 64 ∧ s'.key = s.key ∧ s'.nonce = s.nonce ∧ s'.ctr = s.ctr ∧
      s'.len = s.len ∧ s'.dbuf ≠ s.dbuf := by decide +kernel

theorem witness_StepsAdvanceCounter :
    { keyed with ctr := 0xFFFFFFFF, len := 64 }.fault = false ∧
    { keyed with ctr := 0xFFFFFFFF, len := 64 }.len.toNat ≤ 64 ∧ 0 < 3 := by decide

/-- STEP reads neither X nor S. -/
theorem witness_CommandsReadOnlyTheirRegisters :
    keyed.fault = false ∧ blocked.fault = false ∧ SameReads .step keyed blocked ∧ keyed.x ≠ blocked.x :=
  ⟨rfl, rfl, ⟨rfl, rfl, rfl, rfl, rfl⟩, by decide +kernel⟩

theorem witness_FaultFreezesCommands :
    faulted.fault = true ∧ Instr.init ≠ .scrub ∧ (0x0000010C : Word) ≠ 0x0000000C ∧
    NextInput (wrote faulted 0x0000010C) (.txn (.write faulted.params.pBase 4 0x0000010C)) [] ∧
    NextInput (wrote faulted 0x0000000C) (.txn (.write faulted.params.pBase 4 0x0000000C)) [] :=
  ⟨rfl, by decide, by decide, rfl, rfl⟩

theorem witness_FirstFaultIsKept : faulted.fault = true ∧
    NextInput (asked faulted (.read 0x014 4)) (.txn (.read 0x014 4)) [] := ⟨rfl, rfl⟩

/-- A command that faults, a second error response, and a restricted Write to CTR in a faulted block. -/
theorem witness_FaultsArePrecise :
    (∃ t, NextInput (wrote ready 0x00210002) (.txn (.write ready.params.pBase 4 0x00210002)) [] ∧
      step (wrote ready 0x00210002) = .next t ∧ t.fault ≠ (wrote ready 0x00210002).fault) ∧
    (∃ t, NextInput (asked faulted (.read 0x014 4)) (.txn (.read 0x014 4)) [] ∧
      step (asked faulted (.read 0x014 4)) = .next t ∧
      t.responses = (asked faulted (.read 0x014 4)).responses ++ [.err]) ∧
    (∃ t, step (asked { faulted with params := elsewhere } (.write (elsewhere.pBase + 0x010) 4 2)) = .next t) ∧
      elsewhere.restrictCtr = true ∧ 1 < (2 : Word).toNat :=
  ⟨⟨_, rfl, rfl, by decide +kernel⟩, ⟨_, rfl, rfl, by decide +kernel⟩, ⟨_, rfl⟩, rfl, by decide⟩

theorem witness_RecordStaysLegal :
    RecordLegal (wrote ready 0x00210002) ∧ ∃ t, step (wrote ready 0x00210002) = .next t ∧ t.fault = true :=
  ⟨⟨fun _ => ⟨rfl, rfl⟩, fun h => nomatch h⟩, _, rfl, by decide +kernel⟩

theorem witness_ResetZeroesAndAloneClearsFault :
    NextInput (given faulted .reset) .reset [] ∧ faulted.fault = true ∧
    ∃ t, step (given faulted .reset) = .next t ∧ t.fault = false := ⟨rfl, rfl, _, rfl, rfl⟩

/-- The ends of the map: its last register, and the reserved ranges next to registers. -/
theorem witness_AddressMapIsExact :
    regAt 0x17C = some (.s 15) ∧ 0x17C % 4 = 0 ∧ regAt 0x014 = none ∧ regAt 0x180 = none ∧ 0x180 < 0x1000 := by
  decide

theorem witness_ReadReturnsRegister :
    NextInput (asked moved (.read (moved.params.pBase + regOffset (.s 15)) 4))
      (.txn (.read (moved.params.pBase + regOffset (.s 15)) 4)) [] := rfl

/-- The first and the last register of each array, and LEN. -/
theorem witness_WriteReplacesWord :
    NextInput (asked moved (.write (moved.params.pBase + 0x00C) 4 65))
      (.txn (.write (moved.params.pBase + 0x00C) 4 65)) [] ∧
    NextInput (asked moved (.write (moved.params.pBase + (0x020 + 4 * (7 : Fin 8).val)) 4 1))
      (.txn (.write (moved.params.pBase + (0x020 + 4 * (7 : Fin 8).val)) 4 1)) [] ∧
    NextInput (asked moved (.write (moved.params.pBase + (0x040 + 4 * (2 : Fin 3).val)) 4 1))
      (.txn (.write (moved.params.pBase + (0x040 + 4 * (2 : Fin 3).val)) 4 1)) [] ∧
    NextInput (asked moved (.write (moved.params.pBase + (0x080 + 4 * (15 : Fin 16).val)) 4 1))
      (.txn (.write (moved.params.pBase + (0x080 + 4 * (15 : Fin 16).val)) 4 1)) [] := ⟨rfl, rfl, rfl, rfl⟩

/-- The largest value the restriction lets pass, and the smallest it stops. -/
theorem witness_WriteToCounter :
    NextInput (asked moved (.write (moved.params.pBase + 0x010) 4 2))
      (.txn (.write (moved.params.pBase + 0x010) 4 2)) [] ∧
    (moved.params.restrictCtr = true ∧ 1 < (2 : Word).toNat) ∧
    ¬ (moved.params.restrictCtr = true ∧ 1 < (1 : Word).toNat) ∧
    ¬ (ready.params.restrictCtr = true ∧ 1 < (2 : Word).toNat) := ⟨rfl, by decide, by decide, by decide⟩

/-- The last word of X and of S. -/
theorem witness_ReadOnlyRegistersRefuseWrites :
    (∃ i : Fin 16, 0x13C = 0x100 + 4 * i.val) ∧ (∃ i : Fin 16, 0x17C = 0x140 + 4 * i.val) ∧
    NextInput (asked moved (.write (moved.params.pBase + 0x17C) 4 1))
      (.txn (.write (moved.params.pBase + 0x17C) 4 1)) [] := ⟨⟨15, rfl⟩, ⟨15, rfl⟩, rfl⟩

/-- Both ends of each reserved range, and the offsets beside them. -/
theorem witness_ReservedOffsetsRefuse :
    (∀ off ∈ [0x014, 0x01C, 0x04C, 0x07C, 0x0C0, 0x0FC, 0x180, 0xFFC], off % 4 = 0 ∧ ReservedOffset off) ∧
    (∀ off ∈ [0x010, 0x020, 0x048, 0x080, 0x0BC, 0x100, 0x17C, 0x1000], ¬ ReservedOffset off) ∧
    NextInput (asked moved (.read (moved.params.pBase + 0xFFC) 4))
      (.txn (.read (moved.params.pBase + 0xFFC) 4)) [] ∧
    NextInput (asked moved (.write (moved.params.pBase + 0x014) 4 1))
      (.txn (.write (moved.params.pBase + 0x014) 4 1)) [] :=
  ⟨by unfold ReservedOffset; decide, by unfold ReservedOffset; decide, rfl, rfl⟩

/-- A wide access, a narrow one at the last byte, and a misaligned one. -/
theorem witness_OddAccessesRefuse :
    (0x080 < 0x1000 ∧ (8 ≠ 4 ∨ 0x080 % 4 ≠ 0)) ∧ (0xFFF < 0x1000 ∧ (1 ≠ 4 ∨ 0xFFF % 4 ≠ 0)) ∧
    (0x022 < 0x1000 ∧ (4 ≠ 4 ∨ 0x022 % 4 ≠ 0)) ∧
    NextInput (asked moved (.read (moved.params.pBase + 0x022) 4))
      (.txn (.read (moved.params.pBase + 0x022) 4)) [] ∧
    NextInput (asked moved (.write (moved.params.pBase + 0xFFF) 1 1))
      (.txn (.write (moved.params.pBase + 0xFFF) 1 1)) [] := ⟨by decide, by decide, by decide, rfl, rfl⟩

/-- The addresses next to the window, below and above. -/
theorem witness_OutsideWindowIsNotSeen :
    0x3FFFFFFF < moved.params.pBase ∧ moved.params.pBase + 0x1000 ≤ 0x40001000 ∧
    NextInput (asked moved (.read 0x3FFFFFFF 4)) (.txn (.read 0x3FFFFFFF 4)) [] ∧
    NextInput (asked moved (.write 0x40001000 4 1)) (.txn (.write 0x40001000 4 1)) [] :=
  ⟨by decide, by decide, rfl, rfl⟩

/-- A restricted CTR takes 1, and the last word of DBUF. -/
theorem witness_ReadReturnsLatestWrite :
    let x (r : Reg) : List Input :=
      [.txn (.write (moved.params.pBase + regOffset r) 4 1), .txn (.read (moved.params.pBase + regOffset r) 4)]
    (moved.params.restrictCtr = false ∨ (1 : Word).toNat ≤ 1) ∧ (∃ i, Reg.dbuf 15 = .dbuf i) ∧
    { moved with pending := x .ctr }.pending = x .ctr ∧ { moved with pending := x (.dbuf 15) }.pending = x (.dbuf 15) :=
  ⟨by decide, ⟨15, rfl⟩, rfl, rfl⟩

theorem witness_OnlyCommandsReachMatrix :
    NextInput (asked moved (.write (moved.params.pBase + 0x100) 4 1))
      (.txn (.write (moved.params.pBase + 0x100) 4 1)) [] ∧
    ∀ w, Transaction.write (moved.params.pBase + 0x100) 4 1 ≠ .write moved.params.pBase 4 w :=
  ⟨rfl, fun _ h => by simp at h⟩

/-- The first and the last byte address of the window. -/
theorem witness_EachTransactionIsAnswered :
    moved.params.pBase ≤ 0x40000000 ∧ 0x40000FFF < moved.params.pBase + 0x1000 ∧
    NextInput (asked moved (.read 0x40000FFF 1)) (.txn (.read 0x40000FFF 1)) [] ∧
    NextInput (asked moved (.write 0x40000000 4 1)) (.txn (.write 0x40000000 4 1)) [] :=
  ⟨by decide, by decide, rfl, rfl⟩

/-- A restricted block with the largest counter it accepts, an unrestricted one with a fault-free history, two messages of
one length, and the empty message. -/
theorem witness_MessageLawsHold :
    moved.fault = false ∧ blocked.fault = false ∧ (List.replicate 32 (0 : Byte)).length = 32 ∧
    (List.replicate 12 (0 : Byte)).length = 12 ∧ 1 < 2 ^ 32 ∧ (moved.params.restrictCtr = true → 1 ≤ 1) ∧
    (blocked.params.restrictCtr = true → 1 ≤ 1) ∧
    (List.replicate 65 (0 : Byte)).length = (List.replicate 65 (1 : Byte)).length ∧
    ([] : List Byte).length = ([] : List Byte).length := by decide

/-- The last counter, so that a second chunk wraps. -/
theorem witness_MessageIsItsChunks :
    blocked.fault = false ∧ blocked.params.restrictCtr = false ∧ (List.replicate 32 (0 : Byte)).length = 32 ∧
    (List.replicate 12 (0 : Byte)).length = 12 ∧ 0xFFFFFFFF < 2 ^ 32 := by decide

end Sys2Proof.Machine.Tests
end

section
/-! PROOFS. The statements of 00_scope.md: the word arithmetic of R9 and the little-endian conversions of R10. -/

namespace Sys2Proof.Machine

/-- The two parts of a rotation share no bit: the first is 0 below bit n, the second from bit n on. -/
theorem shiftLeft_and_ushiftRight_eq_zero (v : Word) (n : Nat) : (v <<< n) &&& (v >>> (32 - n)) = 0#32 := by
  apply BitVec.eq_of_getLsbD_eq
  intro i hi
  rcases Nat.lt_or_ge i n with h | h
  · simp [h]
  · simp [BitVec.getLsbD_of_ge v (32 - n + i) (by omega)]

/-- As its two parts share no bit, a rotation is their sum (R9). -/
theorem rotl32_eq_add (v : Word) (n : Nat) : rotl32 v n = (v <<< n) + (v >>> (32 - n)) :=
  (BitVec.add_eq_or_of_and_eq_zero _ _ (shiftLeft_and_ushiftRight_eq_zero v n)).symm

/-- The rotation as a number (R9). -/
theorem rotl32_toNat (v : Word) (n : Nat) :
    (rotl32 v n).toNat = (v.toNat * 2 ^ n + v.toNat / 2 ^ (32 - n)) % 2 ^ 32 := by
  rw [rotl32_eq_add, BitVec.toNat_add, BitVec.toNat_shiftLeft, BitVec.toNat_ushiftRight, Nat.shiftLeft_eq,
    Nat.shiftRight_eq_div_pow, Nat.mod_add_mod]

/-- A byte of a word as a number (R10). -/
theorem byteOf_toNat (w : Word) (k : Nat) : (byteOf w k).toNat = w.toNat / 2 ^ (8 * k) % 2 ^ 8 := by
  rw [byteOf, BitVec.extractLsb'_toNat, Nat.shiftRight_eq_div_pow]

/-- `byteOf_le32` at an index (R10). -/
theorem byteOf_le32_getElem (b : Vector Byte 4) (k : Fin 4) : byteOf (le32 b[0] b[1] b[2] b[3]) k = b[k] := by
  obtain ⟨h0, h1, h2, h3⟩ := byteOf_le32 b[0] b[1] b[2] b[3]
  match k with
  | 0 => exact h0
  | 1 => exact h1
  | 2 => exact h2
  | 3 => exact h3

/-- Settles O1: the rotation is a sum because its parts do not overlap; the sum and the xor are the bit vectors' own. -/
theorem wordArithmeticWraps : Obligations.WordArithmeticWraps :=
  ⟨BitVec.toNat_add, BitVec.toNat_xor, fun v n _ _ => rotl32_toNat v n⟩

/-- Settles O2, by the sum that le32 is and the quotient that a byte is. -/
theorem bytesAreLittleEndian : Obligations.BytesAreLittleEndian :=
  ⟨le32_toNat, fun w k => byteOf_toNat w k, byteOf_le32_getElem⟩

end Sys2Proof.Machine
end

section
/-! PROOFS. The statements of 10_state.md: what every command reads and writes (R38), the legality of the fault record
(R31, R32, R191), and what every step keeps (R22-R24, R34). Before them stand the facts they share: the decoder and the
encoder are inverse to each other, the effect of a command by R38's table, and what a transaction leaves alone. -/

namespace Sys2Proof.Machine

open Claim

/-! ### The decoder and the encoder (30_encoding.md R80-R85) -/

/-- Decoding the word of a command gives the command back (R80-R83). -/
theorem decode_encode (i : Instr) : decode (encode i) = .ok i := by
  cases i with
  | qr a b c d =>
    have hw := encode_qr_toNat a b c d
    have hop : opField (encode (.qr a b c d)) = 2 :=
      BitVec.eq_of_toNat_eq (by rw [opField_toNat]; change _ = 2; omega)
    have hres : reservedQ (encode (.qr a b c d)) = 0 :=
      BitVec.eq_of_toNat_eq (by rw [reservedQ_toNat]; change _ = 0; omega)
    have ha : indexField (encode (.qr a b c d)) 8 = a := Fin.ext (by rw [indexField_val]; omega)
    have hb : indexField (encode (.qr a b c d)) 12 = b := Fin.ext (by rw [indexField_val]; omega)
    have hc : indexField (encode (.qr a b c d)) 16 = c := Fin.ext (by rw [indexField_val]; omega)
    have hd : indexField (encode (.qr a b c d)) 20 = d := Fin.ext (by rw [indexField_val]; omega)
    simp [decode, hop, hres, ha, hb, hc, hd]
  | _ => rfl

/-- The word of a format-N command is its opcode (R80, R82). -/
theorem encode_of_formatNCommand : ∀ op : BitVec 8, ∀ i ∈ formatNCommand op, (encode i).toNat = op.toNat := by
  decide

/-- A word that decodes to a command is that command's word (R84, R85). -/
theorem encode_of_decode {w : Word} {i : Instr} (h : decode w = .ok i) : encode i = w := by
  apply BitVec.eq_of_toNat_eq
  unfold decode at h
  split at h
  case isTrue hop =>
    split at h
    case isTrue => cases h
    case isFalse hres =>
      cases h
      have hop' : w.toNat % 2 ^ 8 = 2 := by rw [← opField_toNat, hop]; rfl
      have hres' : w.toNat / 2 ^ 24 = 0 := by rw [← reservedQ_toNat, not_not.1 hres]; rfl
      simp only [encode_qr_toNat, indexField_val]
      omega
  case isFalse =>
    split at h
    case h_1 => cases h
    case h_2 j hj =>
      split at h
      case isTrue => cases h
      case isFalse hres =>
        cases h
        have hres' : w.toNat / 2 ^ 8 = 0 := by rw [← reservedN_toNat, not_not.1 hres]; rfl
        rw [encode_of_formatNCommand _ _ hj, opField_toNat]
        omega

/-- A Write to CMD of a word that decodes is exec of the command, faulted or not: the freeze at CMD lets SCRUB's one
word pass, and the freeze of exec lets SCRUB pass (R195; log entry 11). -/
theorem command_of_decode {w : Word} {i : Instr} (h : decode w = .ok i) (s : State) : command w s = exec i s := by
  by_cases hfreeze : s.fault = true ∧ w ≠ scrubWord
  · obtain ⟨hf, hw⟩ := hfreeze
    have hi : i ≠ .scrub := fun e => hw (by rw [← encode_of_decode h, e]; rfl)
    rw [exec_of_fault i hf hi]
    simp [command, hf, hw]
  · simp [command, h, hfreeze]

/-! ### What a command writes (10_state.md R38) -/

/-- The faults a command can take on its own, with the cause of each (R122, R162, R166). -/
inductive CommandFault : Instr → FaultCause → Prop where
  | aliased {a b c d : Fin 16} (h : indicesDistinct a b c d = false) : CommandFault (.qr a b c d) .aliased
  | xorksLong : CommandFault .xorks .badLen
  | stepLong : CommandFault .step .badLen

theorem CommandFault.instr_cases {i : Instr} {c : FaultCause} (h : CommandFault i c) :
    i = .xorks ∨ i = .step ∨ ∃ a b c d, i = .qr a b c d := by
  cases h with
  | aliased _ => exact .inr (.inr ⟨_, _, _, _, rfl⟩)
  | xorksLong => exact .inl rfl
  | stepLong => exact .inr (.inl rfl)

/-- A state that nothing has changed is within every row of R38's table. -/
theorem writesOnly_refl (i : Instr) (s : State) : WritesOnly i s s := by
  cases i with
  | qr a b c d => exact ⟨rfl, fun _ _ _ _ _ => rfl⟩
  | _ => rfl

/-- No row of R38's table holds a part of the fault record. -/
theorem sameRecord_of_writesOnly {i : Instr} {s t : State} (h : WritesOnly i s t) : SameRecord s t := by
  cases i with
  | qr a b c d =>
    rw [h.1]
    exact ⟨rfl, rfl, rfl⟩
  | _ =>
    change t = _ at h
    rw [h]
    exact ⟨rfl, rfl, rfl⟩

/-- The effect of a command is what exec answers with, so that the laws of exec speak of it. -/
theorem commandEffect_of_exec {i : Instr} {s t : State} (hf : s.fault = false) (h : exec i s = .next t) :
    commandEffect i s = t := by simpa using (exec_of_clear i hf).symm.trans h

/-- In a state without a fault a command writes within its row of R38's table, or takes a fault with its own word. -/
theorem commandEffect_writes (i : Instr) {s : State} (hf : s.fault = false) :
    WritesOnly i s (commandEffect i s) ∨
      ∃ c, CommandFault i c ∧ commandEffect i s = s.setRecord c.code (encode i) := by
  cases i with
  | qr a b c d =>
    by_cases hd : [a, b, c, d].Nodup
    · rw [commandEffect_of_exec hf (exec_qr_of_distinct hf hd)]
      exact .inl ⟨rfl, fun _ ha hb hc hd => qrSteps_other s.x ha hb hc hd⟩
    · have he : indicesDistinct a b c d = false := Bool.eq_false_iff.2 (mt (indicesDistinct_iff a b c d).1 hd)
      exact .inr ⟨_, .aliased he, commandEffect_of_exec hf (exec_qr_of_equal hf hd)⟩
  | block =>
    rw [commandEffect_of_exec hf (exec_block hf)]
    generalize addWords (repeatTimes 10 doubleRound s.x) s.x = x
    exact .inl rfl
  | xorks =>
    rcases Nat.lt_or_ge 64 s.len.toNat with hl | hl
    · exact .inr ⟨_, .xorksLong, commandEffect_of_exec hf (exec_of_long hf hl).1⟩
    · rw [commandEffect_of_exec hf (exec_xorks hf hl)]
      exact .inl rfl
  | step =>
    rcases Nat.lt_or_ge 64 s.len.toNat with hl | hl
    · exact .inr ⟨_, .stepLong, commandEffect_of_exec hf (exec_of_long hf hl).2⟩
    · rw [commandEffect_of_exec hf (exec_step hf hl)]
      generalize stepBlock s = x
      exact .inl rfl
  | _ => exact .inl rfl

/-- Settles O39: by the table of R38 while no fault is recorded, and by the freeze and SCRUB's row while one is. -/
theorem commandsWriteOnlyTheirRegisters : Obligations.CommandsWriteOnlyTheirRegisters := by
  intro i s
  cases hf : s.fault with
  | false =>
    refine ⟨_, exec_of_clear i hf, ?_⟩
    rcases commandEffect_writes i hf with h | ⟨c, hc, h⟩
    · exact .inl h
    · exact .inr ⟨rfl, hc.instr_cases, c.code, h⟩
  | true =>
    by_cases hi : i = .scrub
    · subst hi
      exact ⟨_, exec_scrub s, .inl rfl⟩
    · exact ⟨s, exec_of_fault i hf hi, .inl (writesOnly_refl i s)⟩

/-! ### What a command reads (10_state.md R38) -/

/-- Two matrices agree on four words in whatever order the four are named. -/
theorem quad_rotate {x y : Words16} {a b c d : Fin 16} (h : quad y a b c d = quad x a b c d) :
    quad y c d a b = quad x c d a b := by
  simp only [quad, Prod.mk.injEq] at h ⊢
  tauto

/-- An ARX step of a quarter-round writes what its four words alone determine (R120). -/
theorem quad_arx_congr {x y : Words16} {a b c d : Fin 16} (hn : [a, b, c, d].Nodup) (r : Nat)
    (h : quad y a b c d = quad x a b c d) : quad (arx a b d r y) a b c d = quad (arx a b d r x) a b c d := by
  obtain ⟨xa, xb, xc, xd⟩ := arx_words x hn r
  obtain ⟨ya, yb, yc, yd⟩ := arx_words y hn r
  simp only [quad, Prod.mk.injEq] at h
  obtain ⟨ha, hb, hc, hd⟩ := h
  simp only [quad, xa, xb, xc, xd, ya, yb, yc, yd, ha, hb, hc, hd]

/-- A quarter-round writes what its four words alone determine (R121). -/
theorem quad_qrSteps_congr {x y : Words16} {a b c d : Fin 16} (hn : [a, b, c, d].Nodup)
    (h : quad y a b c d = quad x a b c d) : quad (qrSteps a b c d y) a b c d = quad (qrSteps a b c d x) a b c d := by
  have hn' : [c, d, a, b].Nodup := (List.perm_append_comm (l₁ := [a, b]) (l₂ := [c, d])).nodup_iff.1 hn
  have h1 := quad_arx_congr hn 16 h
  have h2 := quad_rotate (quad_arx_congr hn' 12 (quad_rotate h1))
  have h3 := quad_arx_congr hn 8 h2
  exact quad_rotate (quad_arx_congr hn' 7 (quad_rotate h3))

/-- Settles O40, by what each command answers with in the two states. -/
theorem commandsReadOnlyTheirRegisters : Obligations.CommandsReadOnlyTheirRegisters := by
  intro i s s' hf hf' hr
  cases i with
  | nop => exact ⟨s, s', exec_of_clear _ hf, exec_of_clear _ hf', hf'.trans hf.symm, fun _ => trivial⟩
  | init =>
    obtain ⟨hk, hn, hc⟩ := hr
    exact ⟨_, _, exec_init hf, exec_init hf', by simp [SameWrites, hf, hf', hk, hn, hc]⟩
  | qr a b c d =>
    by_cases hd : [a, b, c, d].Nodup
    · obtain ⟨ha, hb, hc, hd'⟩ := hr
      have hq : quad s'.x a b c d = quad s.x a b c d := by simp only [quad, ha, hb, hc, hd']
      have hw := quad_qrSteps_congr hd hq
      simp only [quad, Prod.mk.injEq] at hw
      exact ⟨_, _, exec_qr_of_distinct hf hd, exec_qr_of_distinct hf' hd, by simpa [SameWrites, hf, hf'] using hw⟩
    · exact ⟨_, _, exec_qr_of_equal hf hd, exec_qr_of_equal hf' hd, rfl, fun e => nomatch e⟩
  | colround =>
    have hx : s'.x = s.x := hr
    exact ⟨_, _, exec_colround hf, exec_colround hf', by simp [SameWrites, hf, hf', hx]⟩
  | diaground =>
    have hx : s'.x = s.x := hr
    exact ⟨_, _, exec_diaground hf, exec_diaground hf', by simp [SameWrites, hf, hf', hx]⟩
  | dround =>
    have hx : s'.x = s.x := hr
    exact ⟨_, _, exec_dround hf, exec_dround hf', by simp [SameWrites, hf, hf', hx]⟩
  | snap =>
    have hx : s'.x = s.x := hr
    exact ⟨_, _, exec_snap hf, exec_snap hf', by simp [SameWrites, hf, hf', hx]⟩
  | block =>
    have hx : s'.x = s.x := hr
    exact ⟨_, _, exec_block hf, exec_block hf', by simp [SameWrites, hf, hf', hx]⟩
  | feedfwd =>
    obtain ⟨hx, hs⟩ := hr
    exact ⟨_, _, exec_feedfwd hf, exec_feedfwd hf', by simp [SameWrites, hf, hf', hx, hs]⟩
  | xorks =>
    obtain ⟨hl, hx, hb⟩ := hr
    rcases Nat.lt_or_ge 64 s.len.toNat with h | h
    · exact ⟨_, _, (exec_of_long hf h).1, (exec_of_long hf' (hl ▸ h)).1, rfl, fun e => nomatch e⟩
    · exact ⟨_, _, exec_xorks hf h, exec_xorks hf' (hl ▸ h), by simp [SameWrites, hf, hf', hl, hx, hb]⟩
  | ctrinc =>
    have hc : s'.ctr = s.ctr := hr
    exact ⟨_, _, exec_ctrinc hf, exec_ctrinc hf', by simp [SameWrites, hf, hf', hc]⟩
  | step =>
    obtain ⟨hk, hn, hc, hl, hb⟩ := hr
    rcases Nat.lt_or_ge 64 s.len.toNat with h | h
    · exact ⟨_, _, (exec_of_long hf h).2, (exec_of_long hf' (hl ▸ h)).2, rfl, fun e => nomatch e⟩
    · exact ⟨_, _, exec_step hf h, exec_step hf' (hl ▸ h), by
        simp [SameWrites, stepBlock, hf, hf', hk, hn, hc, hl, hb]⟩
  | scrub =>
    exact ⟨_, _, exec_scrub s, exec_scrub s', by simp [SameWrites, SameSecrets, SameInputs, hf, hf']⟩

/-! ### The fault record (60_exceptions.md R191, R193) -/

/-- The FINFO that R191 gives each cause, in a block with the parameters `p`. -/
def FaultDetail (p : Params) (info : Word) : FaultCause → Prop
  | .illegalCmd => ∃ r, decode info = .error r
  | .aliased => ∃ a b c d, decode info = .ok (.qr a b c d) ∧ indicesDistinct a b c d = false
  | .badLen => decode info = .ok .xorks ∨ decode info = .ok .step
  | .badCounter => p.restrictCtr = true ∧ 1 < info.toNat
  | .busError => ∃ kind off size, off < windowSize ∧ info = busInfo kind off size

/-- A command's own fault is recorded with the detail R191 gives it: the command's one word (log entry 9). -/
theorem CommandFault.detail {i : Instr} {c : FaultCause} (h : CommandFault i c) (p : Params) :
    FaultDetail p (encode i) c := by
  cases h with
  | aliased h => exact ⟨_, _, _, _, decode_encode _, h⟩
  | xorksLong => exact .inl (decode_encode _)
  | stepLong => exact .inr (decode_encode _)

/-- Legality is of the record and the parameters alone. -/
theorem RecordLegal.congr {s t : State} (hs : RecordLegal s) (hr : SameRecord s t) (hp : t.params = s.params) :
    RecordLegal t := by
  obtain ⟨hf, hc, hi⟩ := hr
  constructor
  · rw [hf, hc, hi]; exact hs.clear
  · rw [hf, hc, hi, hp]; exact hs.recorded

/-- A record with the detail of its cause is legal. -/
theorem RecordLegal.of_setRecord {s : State} {c : FaultCause} {info : Word} (h : FaultDetail s.params info c) :
    RecordLegal (s.setRecord c.code info) where
  clear := fun e => nomatch e
  recorded := fun _ => by
    cases c with
    | illegalCmd => exact .inl ⟨rfl, h⟩
    | aliased => exact .inr (.inl ⟨rfl, h⟩)
    | badLen => exact .inr (.inr (.inl ⟨rfl, h⟩))
    | badCounter => exact .inr (.inr (.inr (.inl ⟨rfl, h⟩)))
    | busError => exact .inr (.inr (.inr (.inr ⟨rfl, h⟩)))

/-- Taking a fault with the detail of its cause keeps the record legal, and so does a later fault (R193). -/
theorem RecordLegal.raise {s : State} {c : FaultCause} {info : Word} (hs : RecordLegal s)
    (h : FaultDetail s.params info c) : RecordLegal (s.raise c info) := by
  rcases raise_cases s c info with ⟨-, e⟩ | ⟨-, e⟩ <;> rw [e]
  · exact hs
  · exact .of_setRecord h

theorem RecordLegal.complete {s : State} (hs : RecordLegal s) (r : Response) : RecordLegal (s.complete r) :=
  hs.congr ⟨rfl, rfl, rfl⟩ rfl

/-- A Write to CMD keeps the record legal. -/
theorem RecordLegal.command {s t : State} {w : Word} (hs : RecordLegal s) (h : command w s = .next t) :
    RecordLegal t := by
  rcases command_cases w s with ⟨-, e⟩ | ⟨-, hd, e⟩ | ⟨hf, i, -, e⟩ | ⟨-, -, e⟩ <;>
    obtain rfl : _ = t := by simpa using e.symm.trans h
  · exact hs
  · exact .of_setRecord (c := .illegalCmd) hd
  · rcases commandEffect_writes i hf with hw | ⟨c, hc, e⟩
    · exact hs.congr (sameRecord_of_writesOnly hw) (commandEffect_surroundings i s).1.1
    · rw [e]
      exact .of_setRecord (hc.detail s.params)
  · exact hs.congr ⟨rfl, rfl, rfl⟩ rfl

/-- A register write reaches neither the record nor the parameters and the host's side (R56, R57). -/
theorem RegisterWritten.keeps {s t : State} (h : RegisterWritten s t) : SameRecord s t ∧ SameSurroundings s t := by
  cases h <;> exact ⟨⟨rfl, rfl, rfl⟩, rfl, rfl, rfl, rfl⟩

/-- Every transaction keeps the record legal. -/
theorem RecordLegal.transacted {x : Transaction} {s t : State} (hs : RecordLegal s) (h : Transacted x s t) :
    RecordLegal t := by
  cases h with
  | outside => exact hs.congr ⟨rfl, rfl, rfl⟩ rfl
  | read r => exact hs.complete _
  | refused kind off size ho => exact (hs.raise (c := .busError) ⟨kind, off, size, ho, rfl⟩).complete _
  | written u hu => exact (hs.congr hu.keeps.1 hu.keeps.2.1).complete _
  | badCounter v hr hv => exact (hs.raise (c := .badCounter) ⟨hr, hv⟩).complete _
  | commanded w u _ hu => exact (hs.command hu).complete _

/-- Settles O44, by the ways a step can end: each leaves the record, clears it, or writes the detail of its cause. -/
theorem recordStaysLegal : Obligations.RecordStaysLegal := by
  intro s t hs hst
  have hpending : ∀ rest, RecordLegal (s.setPending rest) := fun _ => hs.congr ⟨rfl, rfl, rfl⟩ rfl
  rcases of_step hst with ⟨-, rfl⟩ | ⟨rest, -, rfl⟩ | ⟨x, rest, -, ht⟩
  · exact hs
  · exact ⟨fun _ => ⟨rfl, rfl⟩, fun e => nomatch e⟩
  · exact (hpending rest).transacted ht

/-! ### What a transaction leaves alone (R22-R24, R34) -/

theorem RegisterWritten.sameMatrix {s t : State} (h : RegisterWritten s t) : t.x = s.x ∧ t.snap = s.snap := by
  cases h <;> exact ⟨rfl, rfl⟩

/-- Taking a fault leaves X and S (R194). -/
theorem raise_sameMatrix (s : State) (c : FaultCause) (info : Word) :
    (s.raise c info).x = s.x ∧ (s.raise c info).snap = s.snap := (raise_keeps s c info).1.2

/-- Settles O57: a transaction that is no Write to CMD writes a register of the host's, takes a fault, or does
neither. -/
theorem onlyCommandsReachMatrix : Obligations.OnlyCommandsReachMatrix := by
  intro s x rest hp hx
  obtain ⟨t, ht, hc⟩ := transact_cases x (s.setPending rest)
  refine ⟨t, (step_input hp).trans ht, ?_⟩
  cases hc with
  | outside => exact ⟨rfl, rfl⟩
  | read r => exact ⟨rfl, rfl⟩
  | refused kind off size _ => exact raise_sameMatrix (s.setPending rest) _ _
  | written u hu => exact hu.sameMatrix
  | badCounter v _ _ => exact raise_sameMatrix (s.setPending rest) _ _
  | commanded w u hw _ => exact absurd hw (hx w)

theorem SameSurroundings.refl (s : State) : SameSurroundings s s := ⟨rfl, rfl, rfl, rfl⟩

/-- A Write to CMD leaves the parameters and the host's side. -/
theorem command_surroundings {s t : State} {w : Word} (h : command w s = .next t) : SameSurroundings s t := by
  rcases command_cases w s with ⟨-, e⟩ | ⟨-, -, e⟩ | ⟨-, i, -, e⟩ | ⟨-, -, e⟩ <;>
    obtain rfl : _ = t := by simpa using e.symm.trans h
  · exact .refl s
  · exact ⟨rfl, rfl, rfl, rfl⟩
  · exact (commandEffect_surroundings i s).1
  · exact ⟨rfl, rfl, rfl, rfl⟩

/-- The state `t` is `s` after some change of registers alone, completed with the response `r`. -/
def AnsweredWith (s t : State) (r : Response) : Prop := ∃ u, SameSurroundings s u ∧ t = u.complete r

theorem AnsweredWith.params {s t : State} {r : Response} (h : AnsweredWith s t r) : t.params = s.params := by
  obtain ⟨u, ⟨hp, -, -, -⟩, rfl⟩ := h
  exact hp

/-- One response, and the host's pc moves on by 1 (R24, R52). -/
theorem AnsweredWith.completes {s t : State} {r : Response} (h : AnsweredWith s t r) :
    t.pending = s.pending ∧ t.pc = s.pc + 1 ∧ t.responses = s.responses ++ [r] := by
  obtain ⟨u, ⟨-, hi, hpc, hr⟩, rfl⟩ := h
  exact ⟨hi, by rw [State.complete_pc, hpc], by rw [State.complete_responses, hr]⟩

theorem busError_answers (kind : AccessKind) (off size : Nat) (s : State) :
    AnsweredWith s (busError kind off size s) .err := ⟨_, (raise_keeps s _ _).2, rfl⟩

/-- A transaction passes by, or is answered. -/
theorem Transacted.passes_or_answers {x : Transaction} {s t : State} (h : Transacted x s t) :
    t = s.passBy ∨ ∃ r, AnsweredWith s t r := by
  cases h with
  | outside => exact .inl rfl
  | read r => exact .inr ⟨_, s, .refl s, rfl⟩
  | refused kind off size _ => exact .inr ⟨_, busError_answers kind off size s⟩
  | written u hu => exact .inr ⟨_, u, hu.keeps.2, rfl⟩
  | badCounter v _ _ => exact .inr ⟨_, _, (raise_keeps s _ v).2, rfl⟩
  | commanded w u _ hu => exact .inr ⟨_, u, command_surroundings hu, rfl⟩

/-- A Read in the window is answered OK(v) or ERR (R52). -/
theorem busRead_answers (off size : Nat) (s : State) :
    ∃ r, AnsweredWith s (busRead off size s) r ∧ (r = .err ∨ ∃ d, r = .okRead d) := by
  unfold busRead
  split
  · split
    · exact ⟨_, busError_answers .read off size s, .inl rfl⟩
    · exact ⟨_, ⟨s, .refl s, rfl⟩, .inr ⟨_, rfl⟩⟩
  · exact ⟨_, busError_answers .read off size s, .inl rfl⟩

/-- A Write to CTR leaves the parameters and the host's side, whether it is stored or refused (R57). -/
theorem writeCtr_surroundings (v : Word) (s : State) : SameSurroundings s (writeCtr v s) := by
  unfold writeCtr
  split
  · exact (raise_keeps s _ v).2
  · exact ⟨rfl, rfl, rfl, rfl⟩

/-- An aligned 32-bit Write to a register is answered OK or ERR (R56-R58). -/
theorem writeReg_answers (off : Nat) (r : Reg) (v : Word) (s : State) :
    ∃ t q, writeReg off r v s = .next t ∧ AnsweredWith s t q ∧ (q = .err ∨ q = .okWrite) := by
  cases r with
  | cmd =>
    obtain ⟨u, hu⟩ := command_next v s
    exact ⟨_, _, by simp only [writeReg, hu, mapNext_next], ⟨u, command_surroundings hu, rfl⟩, .inr rfl⟩
  | ctr => exact ⟨_, _, rfl, ⟨_, writeCtr_surroundings v s, rfl⟩, .inr rfl⟩
  | len => exact ⟨_, _, rfl, ⟨_, (RegisterWritten.len v).keeps.2, rfl⟩, .inr rfl⟩
  | key i => exact ⟨_, _, rfl, ⟨_, (RegisterWritten.key i v).keeps.2, rfl⟩, .inr rfl⟩
  | nonce i => exact ⟨_, _, rfl, ⟨_, (RegisterWritten.nonce i v).keeps.2, rfl⟩, .inr rfl⟩
  | dbuf i => exact ⟨_, _, rfl, ⟨_, (RegisterWritten.dbuf i v).keeps.2, rfl⟩, .inr rfl⟩
  | _ => exact ⟨_, _, rfl, busError_answers .write off 4 s, .inl rfl⟩

/-- A Write in the window is answered OK or ERR (R52). -/
theorem busWrite_answers (off size : Nat) (v : Word) (s : State) :
    ∃ t r, busWrite off size v s = .next t ∧ AnsweredWith s t r ∧ (r = .err ∨ r = .okWrite) := by
  unfold busWrite
  split
  · split
    · exact ⟨_, _, rfl, busError_answers .write off size s, .inl rfl⟩
    · exact writeReg_answers off _ v s
  · exact ⟨_, _, rfl, busError_answers .write off size s, .inl rfl⟩

/-- Settles O58: an address of the window is P_BASE and an offset, where busRead and busWrite answer. -/
theorem eachTransactionIsAnswered : Obligations.EachTransactionIsAnswered := by
  intro s addr size v rest hlow hhigh
  obtain ⟨off, rfl⟩ := Nat.exists_eq_add_of_le hlow
  have ho : off < windowSize := Nat.add_lt_add_iff_left.1 hhigh
  constructor
  · intro hp
    obtain ⟨r, ha, hr⟩ := busRead_answers off size (s.setPending rest)
    obtain ⟨hi, hpc, hresp⟩ := ha.completes
    exact ⟨_, r, step_read ho hp, hi, hpc, hresp, hr⟩
  · intro hp
    obtain ⟨t, r, ht, ha, hr⟩ := busWrite_answers off size v (s.setPending rest)
    obtain ⟨hi, hpc, hresp⟩ := ha.completes
    exact ⟨t, r, (step_write ho hp).trans ht, hi, hpc, hresp, hr⟩

/-! ### The step of a command and the parameters (R24, R34) -/

/-- The transaction at the window's base is the aligned 32-bit Write to CMD, which runs the command. -/
theorem step_command {s : State} {w : Word} {rest : List Input}
    (h : s.pending = .txn (.write s.params.pBase 4 w) :: rest) :
    step s = mapNext (·.complete .okWrite) (command w (s.setPending rest)) := by
  rw [step_write (off := regOffset .cmd) (by decide) h, busWrite_reg]
  rfl

/-- Settles O9: the Write at CMD reaches exec, and a 32-bit word sent whole is the word itself. -/
theorem stepRunsDecodedCommand : Obligations.StepRunsDecodedCommand := by
  constructor
  · intro s w i rest hd hp
    rw [step_command hp, command_of_decode hd]
    change mapNext _ (exec i { s with pending := rest }) = _
    cases exec i { s with pending := rest } <;> rfl
  · intro s w
    refine ⟨?_, rfl⟩
    simp [NextInput, State.withFetchWord, commandWrite, regOffset, Nat.mod_eq_of_lt w.isLt]

/-- One bit as a word stands at bit 0. -/
theorem bitWord_getElem (b : Bool) {n : Nat} (h : n < 32) : (bitWord b)[n] = (b && decide (n = 0)) := by
  cases b <;> simp [bitWord, BitVec.getElem_one]

/-- Bit 16 of STATUS is RESTRICT: FAULT is bit 0, and FCODE ends at bit 11 (R31). -/
theorem statusWord_restrict (s : State) : (statusWord s).getLsbD 16 = s.params.restrictCtr := by
  simp [statusWord, bitWord_getElem]

/-- Settles O60, by the ways a step can end and the place of RESTRICT in STATUS. -/
theorem parametersAreFixed : Obligations.ParametersAreFixed := by
  refine ⟨fun s => ?_, statusWord_restrict⟩
  obtain ⟨t, ht, hc⟩ := step_cases s
  refine ⟨t, ht, ?_⟩
  rcases hc with ⟨-, rfl⟩ | ⟨rest, -, rfl⟩ | ⟨x, rest, -, hx⟩
  · rfl
  · rfl
  · rcases hx.passes_or_answers with rfl | ⟨r, ha⟩
    · rfl
    · exact ha.params

end Sys2Proof.Machine
end

section
/-! PROOFS. The statements of 20_memory.md: the address map (R60), what the answer to a Read, a Write and a refused
access is (R53-R61), and the byte lanes (R50, R51). Before them stand one equation per way a step can serve an access,
in the terms of the statements. -/

namespace Sys2Proof.Machine

open Claim

/-! ### The terms of the statements and those of the model -/

theorem regOffset_eq_mapOffset (r : Reg) : regOffset r = mapOffset r := by cases r <;> rfl

theorem regOffset_lt_windowSize (r : Reg) : regOffset r < windowSize := (regOffset_lt r).trans (by decide)

@[simp] theorem readReg_setPending (r : Reg) (s : State) (l : List Input) :
    readReg r (s.setPending l) = readReg r s := by
  cases r <;> rfl

/-- Taking a fault keeps the record of a state that has one (R193). -/
theorem raise_eq_recorded (s : State) (c : FaultCause) (info : Word) : s.raise c info = recorded s c.code info := by
  cases hf : s.fault with
  | true =>
    simp only [raise_of_fault hf, recorded, hf, if_true]
    rw [← hf]
  | false => simp [recorded, hf, State.setRecord]

/-- One bit as a word, as a number. -/
theorem bitWord_toNat (b : Bool) : (bitWord b).toNat = b.toNat := by cases b <;> rfl

/-- A window offset fits the 12 bits that busInfo keeps of it (R53). -/
theorem offsetField_toNat {off : Nat} (h : off < windowSize) : (BitVec.ofNat 32 off &&& 0xFFF#32).toNat = off := by
  have h12 : off < 2 ^ 12 := h
  have hmask : (0xFFF#32).toNat = 2 ^ 12 - 1 := rfl
  rw [BitVec.toNat_and, hmask, Nat.and_two_pow_sub_one_eq_mod, BitVec.toNat_ofNat]
  omega

/-- The three fields of a bus error's detail do not overlap, so their or is their sum (R53). -/
theorem busInfo_eq_busDetail (kind : AccessKind) {off : Nat} (size : Nat) (h : off < windowSize) :
    busInfo kind off size = busDetail kind off size := by
  have h12 : off < 2 ^ 12 := h
  have hoff := offsetField_toNat h
  have hsize : (BitVec.ofNat 32 (size % 16)).toNat = size % 16 := by rw [BitVec.toNat_ofNat]; omega
  have hkind := bitWord_toNat (kind == .write)
  have hbit := Bool.toNat_lt (kind == .write)
  have s1 := toNat_or_shiftLeft (BitVec.ofNat 32 off &&& 0xFFF#32) (BitVec.ofNat 32 (size % 16)) 16
    (by rw [hoff]; omega) (by rw [hsize]; omega)
  have s2 := toNat_or_shiftLeft _ (bitWord (kind == .write)) 31 (by rw [s1, hoff, hsize]; omega)
    (by rw [hkind]; omega)
  have hdetail : busDetail kind off size =
      BitVec.ofNat 32 (off + 2 ^ 16 * (size % 16) + 2 ^ 31 * (kind == .write).toNat) := by cases kind <;> rfl
  have hlt : off + 2 ^ 16 * (size % 16) + 2 ^ 31 * (kind == .write).toNat < 2 ^ 32 := by omega
  apply BitVec.eq_of_toNat_eq
  rw [busInfo, s2, s1, hoff, hsize, hkind, hdetail, BitVec.toNat_ofNat, Nat.mod_eq_of_lt hlt]

/-- STATUS as a sum of its fields (R31). -/
theorem statusWord_toNat (s : State) : (statusWord s).toNat =
    s.fault.toNat + 2 ^ 8 * s.fcode.toNat + 2 ^ 16 * s.params.restrictCtr.toNat := by
  have hfault := Bool.toNat_lt s.fault
  have hrestrict := Bool.toNat_lt s.params.restrictCtr
  have hlt := s.fcode.isLt
  have hcode : (s.fcode.setWidth 32).toNat = s.fcode.toNat := by rw [BitVec.toNat_setWidth]; omega
  have s1 := toNat_or_shiftLeft (bitWord s.fault) (s.fcode.setWidth 32) 8 (by rw [bitWord_toNat]; omega)
    (by rw [hcode]; omega)
  have s2 := toNat_or_shiftLeft _ (bitWord s.params.restrictCtr) 16 (by rw [s1, hcode, bitWord_toNat]; omega)
    (by rw [bitWord_toNat]; omega)
  rw [statusWord, s2, s1, hcode, bitWord_toNat, bitWord_toNat]

/-- What a Read returns is the value that the list of R55 gives. -/
theorem registerValue_readReg (s : State) (r : Reg) : RegisterValue s r (readReg r s) := by
  cases r with
  | status => exact statusWord_toNat s
  | _ => rfl

/-! ### One access, by the way it is served (R53-R61) -/

theorem busError_eq_refusedAccess (kind : AccessKind) {off : Nat} (size : Nat) (h : off < windowSize) (s : State)
    (rest : List Input) : busError kind off size (s.setPending rest) = refusedAccess s rest kind off size := by
  rw [busError, raise_eq_recorded, busInfo_eq_busDetail kind size h]
  rfl

/-- An aligned 32-bit Read of a register is answered with its value (R55). -/
theorem step_read_reg {s : State} {r : Reg} {rest : List Input}
    (h : NextInput s (.txn (.read (s.params.pBase + regOffset r) 4)) rest) :
    step s = .next (answered s rest (.okRead (readReg r s))) := by
  rw [step_read (regOffset_lt_windowSize r) h, busRead_reg, readReg_setPending]
  rfl

/-- An aligned 32-bit Write to a register reaches it (R56-R58). -/
theorem step_write_reg {s : State} {r : Reg} {v : Word} {rest : List Input}
    (h : NextInput s (.txn (.write (s.params.pBase + regOffset r) 4 v)) rest) :
    step s = writeReg (regOffset r) r v (s.setPending rest) := by
  rw [step_write (regOffset_lt_windowSize r) h, busWrite_reg]

/-- An access that the block does not serve, or that finds no register, is refused (R53, R54). -/
theorem busRead_refused {off size : Nat} (h : servable off size = false ∨ regAt off = none) (s : State) :
    busRead off size s = busError .read off size s := by
  rcases h with h | h <;> simp [busRead, h]

theorem busWrite_refused {off size : Nat} (h : servable off size = false ∨ regAt off = none) (v : Word) (s : State) :
    busWrite off size v s = .next (busError .write off size s) := by
  rcases h with h | h <;> simp [busWrite, h]

theorem step_refused {off size : Nat} (ho : off < windowSize) (h : servable off size = false ∨ regAt off = none)
    (s : State) (v : Word) (rest : List Input) :
    (NextInput s (.txn (.read (s.params.pBase + off) size)) rest →
      step s = .next (refusedAccess s rest .read off size)) ∧
    (NextInput s (.txn (.write (s.params.pBase + off) size v)) rest →
      step s = .next (refusedAccess s rest .write off size)) := by
  constructor
  · intro hp
    rw [step_read ho hp, busRead_refused h, busError_eq_refusedAccess _ _ ho]
  · intro hp
    rw [step_write ho hp, busWrite_refused h, busError_eq_refusedAccess _ _ ho]

/-- An access at an address outside the window passes the block by (R61). -/
theorem transact_outside {s : State} {addr size : Nat} {v : Word} {x : Transaction} (h : inWindow s.params addr = false)
    (hx : x = .read addr size ∨ x = .write addr size v) : transact x s = .next s.passBy := by
  rcases hx with rfl | rfl <;> simp [transact, h]

/-! ### The address map (R60) -/

/-- An aligned offset that names a register is that register's own. -/
theorem regOffset_of_regAt {off : Nat} {r : Reg} (ha : off % 4 = 0) (h : regAt off = some r) : regOffset r = off := by
  rcases Nat.lt_or_ge off 0x180 with hlt | hge
  · simpa [h] using regAt_below ⟨off, hlt⟩ ha
  · rw [regAt_none_of_reserved (.inr (.inr (.inr hge)))] at h
    cases h

theorem regAt_eq_none_of_reservedOffset {off : Nat} (h : ReservedOffset off) : regAt off = none := by
  apply regAt_none_of_reserved
  unfold ReservedOffset at h
  omega

theorem reservedOffset_of_regAt_eq_none {off : Nat} (ha : off % 4 = 0) (ho : off < 0x1000) (h : regAt off = none) :
    ReservedOffset off := by
  unfold ReservedOffset
  rcases Nat.lt_or_ge off 0x180 with hlt | hge
  · have hb := regAt_below ⟨off, hlt⟩ ha
    simp only [h, Option.elim_none, decide_eq_true_eq] at hb
    omega
  · omega

/-- Settles O47: below the end of the map by its table of offsets, from there on by the reserved range. -/
theorem addressMapIsExact : Obligations.AddressMapIsExact := by
  refine ⟨fun r => ⟨regAt_regOffset r, regOffset_eq_mapOffset r, regOffset_aligned r, regOffset_lt r⟩, ?_,
    fun off r => regOffset_of_regAt, fun off ha ho =>
      ⟨reservedOffset_of_regAt_eq_none ha ho, regAt_eq_none_of_reservedOffset⟩⟩
  exact ⟨regAt_regOffset .cmd, regAt_regOffset .status, regAt_regOffset .finfo, regAt_regOffset .len,
    regAt_regOffset .ctr, fun i => regAt_regOffset (.key i), fun i => regAt_regOffset (.nonce i),
    fun i => regAt_regOffset (.dbuf i), fun i => regAt_regOffset (.x i), fun i => regAt_regOffset (.s i)⟩

/-! ### Reads and Writes that reach a register (R55-R57) -/

/-- Settles O48, by the equation of a served Read and the list of R55. -/
theorem readReturnsRegister : Obligations.ReadReturnsRegister := fun s r _ hp =>
  ⟨readReg r s, registerValue_readReg s r, step_read_reg hp⟩

/-- Settles O49, by the arm of writeReg for each register. -/
theorem writeReplacesWord : Obligations.WriteReplacesWord := fun _ _ _ =>
  ⟨fun hp => step_write_reg (r := .len) hp, fun i hp => step_write_reg (r := .key i) hp,
    fun i hp => step_write_reg (r := .nonce i) hp, fun i hp => step_write_reg (r := .dbuf i) hp⟩

/-- The value is recorded where the restriction stops it (R57). -/
theorem writeCtr_of_restricted {s : State} {v : Word} (h : s.params.restrictCtr = true ∧ 1 < v.toNat) :
    writeCtr v s = recorded s 4 v := by
  rw [writeCtr, if_pos (by simpa using h), raise_eq_recorded]
  rfl

theorem writeCtr_of_passing {s : State} {v : Word} (h : ¬ (s.params.restrictCtr = true ∧ 1 < v.toNat)) :
    writeCtr v s = s.setCtr v := by rw [writeCtr, if_neg (by simpa using h)]

/-- Settles O50, by the two branches of writeCtr. -/
theorem writeToCounter : Obligations.WriteToCounter := by
  intro s v rest hp
  rw [step_write_reg (r := .ctr) hp, writeReg]
  constructor
  · intro h
    rw [writeCtr_of_restricted (s := s.setPending rest) h]
    rfl
  · intro h
    rw [writeCtr_of_passing (s := s.setPending rest) h]
    rfl

/-- A Write and then a Read of the same register, where the Write leaves its value there. -/
theorem Ends.readBack {s t : State} {r : Reg} {v : Word} (h : Ends s [wrTransaction s.params r v] t [.okWrite])
    (hp : t.params = s.params) (hv : readReg r t = v) :
    Ends s [wrTransaction s.params r v, rdTransaction s.params r] (t.complete (.okRead v)) [.okWrite, .okRead v] := by
  have hr := ends_rd t r
  rw [hp, hv] at hr
  exact h.trans hr

/-- A Write of a value that the register takes leaves it there to be read (R56, R57). -/
theorem ends_write_read (s : State) (r : Reg) (v : Word)
    (h : r = .len ∨ (∃ i, r = .key i) ∨ (∃ i, r = .nonce i) ∨ (∃ i, r = .dbuf i) ∨
      (r = .ctr ∧ (s.params.restrictCtr = false ∨ v.toNat ≤ 1))) :
    ∃ t, Ends s [wrTransaction s.params r v, rdTransaction s.params r] t [.okWrite, .okRead v] := by
  rcases h with rfl | ⟨i, rfl⟩ | ⟨i, rfl⟩ | ⟨i, rfl⟩ | ⟨rfl, hv⟩
  · exact ⟨_, (ends_wr_len s v).readBack rfl rfl⟩
  · exact ⟨_, (ends_wr_key s i v).readBack rfl (by simp [readReg])⟩
  · exact ⟨_, (ends_wr_nonce s i v).readBack rfl (by simp [readReg])⟩
  · exact ⟨_, (ends_wr_dbuf s i v).readBack rfl (by simp [readReg])⟩
  · exact ⟨_, (ends_wr_ctr s v hv).readBack rfl rfl⟩

/-- Settles O56: the two transactions are served one after the other, whatever is sent after them. -/
theorem readReturnsLatestWrite : Obligations.ReadReturnsLatestWrite := by
  intro s r v rest hr hp
  obtain ⟨t, ht⟩ := ends_write_read s r v hr
  refine ⟨t.setPending rest, ?_, ht.answered, rfl⟩
  have hs : s = s.setPending s.pending := rfl
  rw [hs, hp]
  exact ht.served rest

/-! ### Refused accesses and addresses outside the window (R53, R54, R58, R61) -/

/-- An aligned 32-bit Write to a register whose arm of writeReg refuses it is refused (R58). -/
theorem step_write_readOnly {s : State} {r : Reg} {v : Word} {rest : List Input}
    (hr : writeReg (regOffset r) r v (s.setPending rest) = .next (busError .write (regOffset r) 4 (s.setPending rest)))
    (hp : NextInput s (.txn (.write (s.params.pBase + regOffset r) 4 v)) rest) :
    step s = .next (refusedAccess s rest .write (regOffset r) 4) := by
  rw [step_write_reg hp, hr, busError_eq_refusedAccess _ _ (regOffset_lt_windowSize r)]

/-- Settles O51: STATUS, FINFO, X and S are the registers whose arm of writeReg refuses. -/
theorem readOnlyRegistersRefuseWrites : Obligations.ReadOnlyRegistersRefuseWrites := by
  intro s off v rest hoff hp
  rcases hoff with rfl | rfl | ⟨i, rfl⟩ | ⟨i, rfl⟩
  · exact step_write_readOnly (r := .status) rfl hp
  · exact step_write_readOnly (r := .finfo) rfl hp
  · exact step_write_readOnly (r := .x i) rfl hp
  · exact step_write_readOnly (r := .s i) rfl hp

/-- Settles O52: a reserved offset names no register. -/
theorem reservedOffsetsRefuse : Obligations.ReservedOffsetsRefuse := by
  intro s off v rest _ hres
  have ho : off < windowSize := by
    unfold ReservedOffset at hres
    change off < 0x1000
    omega
  exact step_refused ho (.inr (regAt_eq_none_of_reservedOffset hres)) s v rest

/-- Settles O53: such an access is not servable. -/
theorem oddAccessesRefuse : Obligations.OddAccessesRefuse := by
  intro s off size v rest ho hodd
  have hserv : servable off size = false := by
    rcases hodd with h | h <;> simp [servable, h]
  exact step_refused ho (.inl hserv) s v rest

/-- Settles O54: the transaction passes by, which moves the host's pc and nothing else (log entry 4). -/
theorem outsideWindowIsNotSeen : Obligations.OutsideWindowIsNotSeen := by
  intro s addr size v rest x haddr hx hp
  have hout : inWindow (s.setPending rest).params addr = false := by
    apply decide_eq_false
    change ¬ (s.params.pBase ≤ addr ∧ addr < s.params.pBase + 0x1000)
    omega
  refine ⟨(s.setPending rest).passBy, (step_input hp).trans (transact_outside hout hx), ?_⟩
  exact ⟨⟨⟨rfl, rfl, rfl, rfl, rfl⟩, rfl, rfl⟩, ⟨rfl, rfl, rfl⟩, rfl, rfl⟩

/-! ### The byte lanes (R50, R51) -/

/-- The four bytes from a register's offset on are those of its word, the lowest first (R50). -/
theorem windowByte_reg (r : Reg) (s : State) {k : Nat} (hk : k < 4) :
    windowByte (regOffset r + k) s = some (byteOf (readReg r s) k) := by
  have ha := regOffset_aligned r
  have hword : 4 * ((regOffset r + k) / 4) = regOffset r := by omega
  have hlane : (regOffset r + k) % 4 = k := by omega
  rw [windowByte, hword, hlane, regAt_regOffset]
  rfl

/-- The bytes of a register array that stands in the window from `base` on stand there in order (R51). -/
theorem windowByte_array {n base : Nat} {ws : Vector Word n} {s : State} (reg : Fin n → Reg)
    (hoff : ∀ i, regOffset (reg i) = base + 4 * i.val) (hval : ∀ i, readReg (reg i) s = ws[i]) (j : Fin (4 * n)) :
    windowByte (base + j.val) s = some (leByte ws j) := by
  have hi : j.val / 4 < n := by omega
  have hj : base + j.val = regOffset (reg ⟨j.val / 4, hi⟩) + j.val % 4 := by rw [hoff]; dsimp only; omega
  rw [hj, windowByte_reg _ _ (Nat.mod_lt _ (by decide)), hval]
  rfl

/-- Settles O55, by the offsets and the values of the words of each array. -/
theorem windowBytesInOrder : Obligations.WindowBytesInOrder := fun _ =>
  ⟨windowByte_array .key (fun _ => rfl) (fun _ => rfl), windowByte_array .nonce (fun _ => rfl) (fun _ => rfl),
    windowByte_array .dbuf (fun _ => rfl) (fun _ => rfl), windowByte_array .x (fun _ => rfl) (fun _ => rfl)⟩

end Sys2Proof.Machine
end

section
/-! PROOFS. The statements of 30_encoding.md: the words of the commands (R88), the decoder as the opcode table's match
and mask (R82, R83), and which words are illegal and what they do (R84). That the decoder and the encoder are inverse
to each other stands with the proofs of 10_state.md, as `decode_encode` and `encode_of_decode`. -/

namespace Sys2Proof.Machine

open Claim

/-! ### The decoder and the encoder (R80-R85, R88) -/

/-- Settles O5, by the fields of each command's word. -/
theorem decodeOfEncode : Obligations.DecodeOfEncode := decode_encode

/-- Settles O6, by the branches of the decoder that answer with a command. -/
theorem encodeOfDecode : Obligations.EncodeOfDecode := fun _ _ => encode_of_decode

/-- Settles O3: the words are the encoder's own, and the formula of QR is a sum because the fields do not overlap. -/
theorem commandWordsAreTabled : Obligations.CommandWordsAreTabled :=
  ⟨rfl, rfl, rfl, rfl, rfl, rfl, rfl, rfl, rfl, rfl, rfl, rfl, encode_qr_toNat,
    rfl, rfl, rfl, rfl, rfl, rfl, rfl, rfl, rfl, rfl⟩

/-- Settles O4: each of the words is the word of its command, which decodes back to it. -/
theorem writtenWordsDecode : Obligations.WrittenWordsDecode :=
  ⟨decode_encode .init, decode_encode (.qr 4 5 6 7), decode_encode .block, decode_encode .step,
    decode_encode .scrub⟩

/-! ### The opcode table (R82, R83) -/

/-- Every command's word selects the command's own row of the table and no other. -/
theorem selects_encode (i : Instr) : Laws.OpcodeRow.Statement i := by
  cases i with
  | nop => exact Laws.OpcodeRow.nop
  | init => exact Laws.OpcodeRow.init
  | qr a b c d => exact Laws.OpcodeRow.qr a b c d
  | colround => exact Laws.OpcodeRow.colround
  | diaground => exact Laws.OpcodeRow.diaground
  | dround => exact Laws.OpcodeRow.dround
  | snap => exact Laws.OpcodeRow.snap
  | feedfwd => exact Laws.OpcodeRow.feedfwd
  | block => exact Laws.OpcodeRow.block
  | xorks => exact Laws.OpcodeRow.xorks
  | ctrinc => exact Laws.OpcodeRow.ctrinc
  | step => exact Laws.OpcodeRow.step
  | scrub => exact Laws.OpcodeRow.scrub

theorem opcodeRow_mem (i : Instr) : opcodeRow i ∈ opcodeTable := by
  cases i with
  | qr a b c d => exact List.mem_map_of_mem (a := Instr.qr 0 0 0 0) (by decide)
  | _ => exact List.mem_map_of_mem (by decide)

/-- A mask that is all ones at a field keeps the field. -/
theorem extractLsb'_and_of_allOnes (w m : Word) {lo len : Nat} (h : m.extractLsb' lo len = BitVec.allOnes len) :
    (w &&& m).extractLsb' lo len = w.extractLsb' lo len := by
  rw [BitVec.extractLsb'_and, h, BitVec.and_allOnes]

/-- A word with QR's opcode and no bit of format Q's reserved field is a QR of its index fields (R81, R83). -/
theorem decode_of_qr_fields {w : Word} (hop : opField w = 2) (hres : reservedQ w = 0) :
    decode w = .ok (.qr (indexField w 8) (indexField w 12) (indexField w 16) (indexField w 20)) := by
  simp [decode, hop, hres]

/-- A format-N row has no field but the opcode, so its command's word alone selects it (R80). -/
theorem eq_encode_of_selects {i : Instr} (hi : i.formatN = true) {w : Word} (h : (opcodeRow i).selects w = true) :
    w = encode i := by
  cases i with
  | qr a b c d => cases hi
  | _ => exact (Laws.OpcodeRow.selects_full _ _ w).1 h

/-- A word that selects a command's row decodes to a command of the row: to the row's one command in format N, and to
the QR of the word's index fields in format Q. -/
theorem decode_of_selects (i : Instr) {w : Word} (h : (opcodeRow i).selects w = true) :
    ∃ j, decode w = .ok j ∧ opcodeRow j = opcodeRow i := by
  cases i with
  | qr a b c d =>
    have hmask : w &&& 0xFF0000FF#32 = 2#32 := by simpa [OpcodeRow.selects, opcodeRow] using h
    have hop : opField w = 2 :=
      (extractLsb'_and_of_allOnes w 0xFF0000FF#32 (by decide)).symm.trans (by rw [hmask]; decide)
    have hres : reservedQ w = 0 :=
      (extractLsb'_and_of_allOnes w 0xFF0000FF#32 (by decide)).symm.trans (by rw [hmask]; decide)
    exact ⟨_, decode_of_qr_fields hop hres, rfl⟩
  | _ => exact ⟨_, (congrArg decode (eq_encode_of_selects rfl h)).trans (decode_encode _), rfl⟩

/-- Match and mask select a row exactly if the decoder answers with a command of the row (R83). -/
theorem selects_iff_decode {r : OpcodeRow} (hr : r ∈ opcodeTable) (w : Word) :
    r.selects w = true ↔ ∃ i, decode w = .ok i ∧ opcodeRow i = r := by
  constructor
  · obtain ⟨i, -, rfl⟩ := List.mem_map.1 hr
    exact decode_of_selects i
  · rintro ⟨i, hd, rfl⟩
    rw [← encode_of_decode hd]
    exact (selects_encode i _ hr).2 rfl

/-- A word selects at most one row: the row of the command it decodes to. -/
theorem eq_of_selects {r q : OpcodeRow} (hr : r ∈ opcodeTable) (hq : q ∈ opcodeTable) {w : Word}
    (h : r.selects w = true) (h' : q.selects w = true) : r = q := by
  obtain ⟨i, hi, rfl⟩ := (selects_iff_decode hr w).1 h
  obtain ⟨j, hj, rfl⟩ := (selects_iff_decode hq w).1 h'
  obtain rfl : i = j := by simpa using hi.symm.trans hj
  rfl

/-- Settles O7: the rows a word selects are the rows of what it decodes to, and the table lists no row twice. -/
theorem decoderFollowsOpcodeTable : Obligations.DecoderFollowsOpcodeTable := by
  refine ⟨fun w r hr => selects_iff_decode hr w, opcodeRow_mem, ?_⟩
  have hnodup : opcodeTable.Nodup := by decide
  exact hnodup.imp_of_mem fun hr hq hne w h => Bool.eq_false_iff.2 fun h' => hne (eq_of_selects hr hq h h')

/-! ### Illegal words (R84) -/

/-- The decoder rejects a word by its opcode or by the reserved field of its opcode's format (R84). -/
theorem decode_error_iff (w : Word) : (∃ e, decode w = .error e) ↔
    0x0C < w.toNat % 2 ^ 8 ∨ (w.toNat % 2 ^ 8 ≠ 2 ∧ w.toNat / 2 ^ 8 ≠ 0) ∨
      (w.toNat % 2 ^ 8 = 2 ∧ w.toNat / 2 ^ 24 ≠ 0) := by
  rw [← opField_toNat, ← reservedN_toNat, ← reservedQ_toNat]
  unfold decode
  split
  case isTrue hop =>
    split
    case isTrue hres => exact iff_of_true ⟨_, rfl⟩ (by bv_omega)
    case isFalse hres => exact iff_of_false (by simp) (by bv_omega)
  case isFalse hop =>
    split
    case h_1 hnone =>
      have hmap := (formatNCommand_eq_none _).1 hnone
      exact iff_of_true ⟨_, rfl⟩ (by bv_omega)
    case h_2 i hsome =>
      have hmap := mt (formatNCommand_eq_none (opField w)).2 (by simp [hsome])
      split
      case isTrue hres => exact iff_of_true ⟨_, rfl⟩ (by bv_omega)
      case isFalse hres => exact iff_of_false (by simp) (by bv_omega)

/-- An illegal word written to CMD while FAULT = 0 is recorded as ILLEGAL_CMD with the word (R83, R191). -/
theorem command_of_illegal {s : State} {w : Word} {e : IllegalWord} (hf : s.fault = false)
    (hd : decode w = .error e) : command w s = .next (recorded s 1 w) := by
  have hrec : s.raise .illegalCmd w = recorded s 1 w := raise_eq_recorded s .illegalCmd w
  rw [← hrec]
  simp [command, hf, hd]

/-- Settles O8, by the branches of the decoder, and by the arm of the command port that takes a rejected word. -/
theorem illegalWordsFault : Obligations.IllegalWordsFault := by
  refine ⟨decode_error_iff, fun s w e rest hf hd hp => ?_⟩
  rw [step_command hp, command_of_illegal (s := s.setPending rest) hf hd]
  rfl

end Sys2Proof.Machine
end

section
/-! PROOFS. The statements of 40_state_init.md: the matrix INIT builds (R100-R104), and that INIT is idempotent (R106).
The second rests on a fact about command sequences: those without CTRINC, STEP and SCRUB keep the registers INIT
reads (R38). -/

namespace Sys2Proof.Machine

open Claim

/-! ### The matrix (R100-R104) -/

/-- The 16 words that INIT writes are those of R104: the decodes of KEY and NONCE give their words (R101, R102). -/
theorem initialMatrix_spec (key : KeyWords) (nonce : NonceWords) (ctr : Word) :
    InitialMatrix key nonce ctr (initialMatrix key nonce ctr) := by
  refine ⟨rfl, rfl, rfl, rfl, fun i => ?_, rfl, fun i => ?_⟩
  · rw [← keyword_eq key i]
    fin_cases i <;> rfl
  · rw [← nonceword_eq nonce i]
    fin_cases i <;> rfl

/-- Settles O13: INIT answers with the matrix of R104 in X. -/
theorem initBuildsMatrix : Obligations.InitBuildsMatrix := fun s hf =>
  ⟨_, exec_init hf, rfl, initialMatrix_spec s.key s.nonce s.ctr⟩

/-! ### What keeps the registers INIT reads (R38) -/

/-- No row of R38's table but those of CTRINC, STEP and SCRUB holds KEY, NONCE or CTR. -/
theorem sameInitReads_of_writesOnly {i : Instr} {s t : State} (hi : i ≠ .ctrinc ∧ i ≠ .step ∧ i ≠ .scrub)
    (h : WritesOnly i s t) : SameReads .init s t := by
  obtain ⟨hctrinc, hstep, hscrub⟩ := hi
  cases i with
  | ctrinc => exact absurd rfl hctrinc
  | step => exact absurd rfl hstep
  | scrub => exact absurd rfl hscrub
  | qr a b c d =>
    rw [h.1]
    exact ⟨rfl, rfl, rfl⟩
  | _ =>
    change t = _ at h
    rw [h]
    exact ⟨rfl, rfl, rfl⟩

/-- A command other than CTRINC, STEP and SCRUB answers a next state, faulted or not, with KEY, NONCE and CTR kept. -/
theorem exec_keeps_initReads {i : Instr} (hi : i ≠ .ctrinc ∧ i ≠ .step ∧ i ≠ .scrub) (s : State) :
    ∃ t, exec i s = .next t ∧ SameReads .init s t := by
  obtain ⟨t, ht, hw | ⟨-, -, _, rfl⟩⟩ := commandsWriteOnlyTheirRegisters i s
  · exact ⟨t, ht, sameInitReads_of_writesOnly hi hw⟩
  · exact ⟨_, ht, rfl, rfl, rfl⟩

/-- A sequence of commands goes on from what its first command left. -/
theorem runCommands_cons_of_next {i : Instr} {s t : State} (h : exec i s = .next t) (l : List Instr) :
    runCommands (i :: l) s = runCommands l t := by
  simp only [runCommands, h]

/-- A sequence of commands without CTRINC, STEP and SCRUB keeps KEY, NONCE and CTR. -/
theorem runCommands_keeps_initReads {l : List Instr} (hl : ∀ i ∈ l, i ≠ .ctrinc ∧ i ≠ .step ∧ i ≠ .scrub)
    {s m : State} (h : runCommands l s = .next m) : SameReads .init s m := by
  induction l generalizing s with
  | nil =>
    cases h
    exact ⟨rfl, rfl, rfl⟩
  | cons i rest ih =>
    obtain ⟨hi, hrest⟩ := List.forall_mem_cons.1 hl
    obtain ⟨t, ht, hkey, hnonce, hctr⟩ := exec_keeps_initReads hi s
    rw [runCommands_cons_of_next ht] at h
    obtain ⟨hkey', hnonce', hctr'⟩ := ih hrest h
    exact ⟨hkey'.trans hkey, hnonce'.trans hnonce, hctr'.trans hctr⟩

/-! ### INIT is idempotent (R106) -/

/-- Settles O14: INIT keeps the registers it reads, and so do the commands between; the X it writes depends on those
registers alone. -/
theorem initIsIdempotent : Obligations.InitIsIdempotent := by
  intro s hf
  refine ⟨_, exec_init hf, exec_init (s := s.setX _) hf, fun l m hl hrun hm => ⟨_, exec_init hm, ?_⟩⟩
  obtain ⟨hkey, hnonce, hctr⟩ := runCommands_keeps_initReads hl hrun
  simp only [State.setX_x, hkey, hnonce, hctr, State.setX_key, State.setX_nonce, State.setX_ctr]

end Sys2Proof.Machine
end

section
/-! PROOFS. The statements of 41_quarter_round.md: QR (R120-R123), the rounds and their order (R124-R128), and the laws
of the engine (R129, R130). A QR is seen as a map of four words; a round, as the command sequence of its four QRs,
whose result is fixed word by word since they name no word twice. -/

namespace Sys2Proof.Machine

open Claim

/-! ### The ARX step as a map of four words (R120) -/

/-- The ARX step on (a, b, d) as a map of the four words of a quarter-round. -/
def arxQuad (r : Nat) : Word × Word × Word × Word → Word × Word × Word × Word
  | (a, b, c, d) => (a + b, b, c, (d ^^^ (a + b)).rotateLeft r)

/-- The four words in the order in which the ARX step on (c, d, b) names them. -/
def turnQuad : Word × Word × Word × Word → Word × Word × Word × Word
  | (a, b, c, d) => (c, d, a, b)

/-- The first and the third step of R121 do to a matrix what `arxQuad` does to its four words. -/
theorem quad_arx (x : Words16) {a b c d : Fin 16} (hn : [a, b, c, d].Nodup) {r : Nat} (hr : r < 32) :
    quad (arx a b d r x) a b c d = arxQuad r (quad x a b c d) := by
  obtain ⟨ha, hb, hc, hd⟩ := arx_words x hn r
  rw [quad, ha, hb, hc, hd, rotl32_eq_rotateLeft _ hr]
  rfl

/-- The second and the fourth step of R121 do the same with the roles of (a, b) and (c, d) exchanged. -/
theorem quad_arx_turned (x : Words16) {a b c d : Fin 16} (hn : [a, b, c, d].Nodup) {r : Nat} (hr : r < 32) :
    quad (arx c d b r x) a b c d = turnQuad (arxQuad r (turnQuad (quad x a b c d))) := by
  have hn' : [c, d, a, b].Nodup := (List.perm_append_comm (l₁ := [a, b]) (l₂ := [c, d])).nodup_iff.1 hn
  exact congrArg turnQuad (quad_arx x hn' hr)

/-- The quarter-round is its four ARX steps (R121). -/
theorem quarterRound_eq_arxQuad (a b c d : Word) : quarterRound a b c d =
    turnQuad (arxQuad 7 (turnQuad (arxQuad 8 (turnQuad (arxQuad 12 (turnQuad (arxQuad 16 (a, b, c, d)))))))) := rfl

/-- QRSTEPS leaves the quarter-round of its four words (R121). -/
theorem quarterRounds_qrSteps (x : Words16) {a b c d : Fin 16} (hn : [a, b, c, d].Nodup) :
    QuarterRounds x (qrSteps a b c d x) a b c d := by
  rw [QuarterRounds, quarterRound_eq_arxQuad, qrSteps, quad_arx_turned _ hn (by decide), quad_arx _ hn (by decide),
    quad_arx_turned _ hn (by decide), quad_arx _ hn (by decide)]
  rfl

/-! ### The commands of the engine on a given X -/

section

variable {s : State}

theorem exec_qr_setX (hf : s.fault = false) {a b c d : Fin 16} (hn : [a, b, c, d].Nodup) (x : Words16) :
    exec (.qr a b c d) (s.setX x) = .next (s.setX (qrSteps a b c d x)) := exec_qr_of_distinct (s := s.setX x) hf hn

theorem exec_colround_setX (hf : s.fault = false) (x : Words16) :
    exec .colround (s.setX x) = .next (s.setX (columnRound x)) := exec_colround hf

theorem exec_diaground_setX (hf : s.fault = false) (x : Words16) :
    exec .diaground (s.setX x) = .next (s.setX (diagonalRound x)) := exec_diaground hf

theorem exec_dround_setX (hf : s.fault = false) (x : Words16) :
    exec .dround (s.setX x) = .next (s.setX (doubleRound x)) := exec_dround hf

end

/-! ### QR (R122, R123, R130) -/

/-- Settles O15: the four words are those of QRSTEPS, which keeps the others. -/
theorem qrChangesItsFourWords : Obligations.QrChangesItsFourWords := fun s _ _ _ _ hf hn =>
  ⟨_, exec_qr_of_distinct hf hn, quarterRounds_qrSteps s.x hn, fun _ => qrSteps_other s.x, rfl⟩

/-- Settles O16: the check of R122 comes before any write. -/
theorem qrAliasFaults : Obligations.QrAliasFaults := fun _ _ _ _ _ hf hn => exec_qr_of_equal hf hn

/-- Settles O17: each ARX step maps the words of one row of R130 to those of the next. -/
theorem quarterRoundVectorSteps : Obligations.QuarterRoundVectorSteps := by
  intro x a b c d hn h0 x1 x2 x3 x4
  have h1 : quad x1 a b c d = (0x12131415, 0x01020304, 0x9b8d6f43, 0x51721330) := by
    rw [quad_arx x hn (by decide), h0]; decide
  have h2 : quad x2 a b c d = (0x12131415, 0xd8177edf, 0xecff8273, 0x51721330) := by
    rw [quad_arx_turned x1 hn (by decide), h1]; decide
  have h3 : quad x3 a b c d = (0xea2a92f4, 0xd8177edf, 0xecff8273, 0x5881c4bb) := by
    rw [quad_arx x2 hn (by decide), h2]; decide
  have h4 : quad x4 a b c d = (0xea2a92f4, 0xcb1cf8ce, 0x4581472e, 0x5881c4bb) := by
    rw [quad_arx_turned x3 hn (by decide), h3]; decide
  exact ⟨h1, h2, h3, h4⟩

/-! ### Sequences of QRs that name no word twice (R125) -/

/-- The words of X that a QR names. -/
def qrWords : Instr → List (Fin 16)
  | .qr a b c d => [a, b, c, d]
  | _ => []

/-- A quarter-round reads and writes its four words alone. -/
theorem quarterRounds_congr {x x' y y' : Words16} {a b c d : Fin 16} (h : QuarterRounds x y a b c d)
    (hx : ∀ j ∈ [a, b, c, d], x'[j] = x[j]) (hy : ∀ j ∈ [a, b, c, d], y'[j] = y[j]) :
    QuarterRounds x' y' a b c d := by
  simp only [List.forall_mem_cons] at hx hy
  obtain ⟨hxa, hxb, hxc, hxd, -⟩ := hx
  obtain ⟨hya, hyb, hyc, hyd, -⟩ := hy
  simpa only [QuarterRounds, quad, hxa, hxb, hxc, hxd, hya, hyb, hyc, hyd] using h

theorem qrSteps_of_notMem (x : Words16) {a b c d j : Fin 16} (h : j ∉ [a, b, c, d]) :
    (qrSteps a b c d x)[j] = x[j] := by
  simp only [List.mem_cons, List.not_mem_nil, or_false, not_or] at h
  obtain ⟨ha, hb, hc, hd⟩ := h
  exact qrSteps_other x ha hb hc hd

/-- Matrices that agree on four words agree on each of them. -/
theorem getElem_eq_of_quad_eq {x y : Words16} {a b c d : Fin 16} (h : quad x a b c d = quad y a b c d) :
    ∀ j ∈ [a, b, c, d], x[j] = y[j] := by
  simp only [quad, Prod.mk.injEq] at h
  simpa using h

/-- QRs that name no word twice, issued one after the other, leave the quarter-round of the words that stood at each
one's indices, and keep the words that none of them names. -/
theorem runCommands_of_disjoint_qrs (l : List Instr) (hq : ∀ i ∈ l, i.formatN = false)
    (hn : (l.flatMap qrWords).Nodup) {s : State} (hf : s.fault = false) :
    ∃ y, runCommands l s = .next (s.setX y) ∧ (∀ a b c d, .qr a b c d ∈ l → QuarterRounds s.x y a b c d) ∧
      ∀ j ∉ l.flatMap qrWords, y[j] = s.x[j] := by
  induction l generalizing s with
  | nil => exact ⟨s.x, rfl, by simp, fun _ _ => rfl⟩
  | cons i rest ih =>
    obtain ⟨hi, hrest⟩ := List.forall_mem_cons.1 hq
    cases i with
    | qr a b c d =>
      rw [List.flatMap_cons, List.nodup_append'] at hn
      obtain ⟨habcd, hnrest, hdisj⟩ := hn
      obtain ⟨y, hrun, hrounds, hkept⟩ := ih hrest hnrest (s := s.setX (qrSteps a b c d s.x)) hf
      refine ⟨y, (runCommands_cons_of_next (exec_qr_of_distinct hf habcd) rest).trans hrun, ?_, ?_⟩
      · intro e f g k hmem
        rcases List.mem_cons.1 hmem with heq | hmem
        · cases heq
          exact quarterRounds_congr (quarterRounds_qrSteps s.x habcd) (fun _ _ => rfl) fun j hj => hkept j (hdisj hj)
        · have hwords : ∀ j ∈ [e, f, g, k], j ∉ [a, b, c, d] := fun j hj hj' =>
            hdisj hj' (List.mem_flatMap.2 ⟨_, hmem, hj⟩)
          exact quarterRounds_congr (hrounds e f g k hmem)
            (fun j hj => (qrSteps_of_notMem s.x (hwords j hj)).symm) fun _ _ => rfl
      · intro j hj
        rw [List.flatMap_cons, List.mem_append, not_or] at hj
        exact (hkept j hj.2).trans (qrSteps_of_notMem s.x hj.1)
    | _ => cases hi

/-- Two orders of such QRs that between them name every word of X leave the same state. -/
theorem runCommands_perm_of_disjoint_qrs {l l' : List Instr} (hp : l.Perm l') (hq : ∀ i ∈ l', i.formatN = false)
    (hn : (l'.flatMap qrWords).Nodup) (hall : ∀ j, j ∈ l'.flatMap qrWords) {s : State} (hf : s.fault = false) :
    runCommands l s = runCommands l' s := by
  obtain ⟨y, hrun, hrounds, -⟩ := runCommands_of_disjoint_qrs l (fun i hi => hq i (hp.mem_iff.1 hi))
    ((hp.flatMap_right qrWords).nodup_iff.2 hn) hf
  obtain ⟨y', hrun', hrounds', -⟩ := runCommands_of_disjoint_qrs l' hq hn hf
  have hy : y = y' := by
    refine Vector.ext fun j hj => ?_
    obtain ⟨i, hi, hji⟩ := List.mem_flatMap.1 (hall ⟨j, hj⟩)
    cases i with
    | qr a b c d =>
      have hquad : quad y a b c d = quad y' a b c d :=
        (hrounds a b c d (hp.mem_iff.2 hi)).trans (hrounds' a b c d hi).symm
      exact getElem_eq_of_quad_eq hquad ⟨j, hj⟩ hji
    | _ => cases hji
  rw [hrun, hrun', hy]

/-! ### The rounds (R124-R128) -/

/-- A sequence of commands goes on from the X that its first QR left. -/
theorem runCommands_cons_qr {s : State} (hf : s.fault = false) {a b c d : Fin 16} (hn : [a, b, c, d].Nodup)
    (l : List Instr) (x : Words16) :
    runCommands (.qr a b c d :: l) (s.setX x) = runCommands l (s.setX (qrSteps a b c d x)) :=
  runCommands_cons_of_next (exec_qr_setX hf hn x) l

/-- COLROUND is the column QRs in the order of R124. -/
theorem exec_colround_eq_runCommands {s : State} (hf : s.fault = false) :
    exec .colround s = runCommands columnCommands s := by
  change _ = runCommands columnCommands (s.setX s.x)
  simp only [columnCommands]
  rw [exec_colround hf, runCommands_cons_qr hf (by decide), runCommands_cons_qr hf (by decide),
    runCommands_cons_qr hf (by decide), runCommands_cons_qr hf (by decide)]
  rfl

/-- DIAGROUND is the diagonal QRs in the order of R126. -/
theorem exec_diaground_eq_runCommands {s : State} (hf : s.fault = false) :
    exec .diaground s = runCommands diagonalCommands s := by
  change _ = runCommands diagonalCommands (s.setX s.x)
  simp only [diagonalCommands]
  rw [exec_diaground hf, runCommands_cons_qr hf (by decide), runCommands_cons_qr hf (by decide),
    runCommands_cons_qr hf (by decide), runCommands_cons_qr hf (by decide)]
  rfl

theorem columnCommands_disjoint : (∀ i ∈ columnCommands, i.formatN = false) ∧
    (columnCommands.flatMap qrWords).Nodup ∧ ∀ j, j ∈ columnCommands.flatMap qrWords := by decide

theorem diagonalCommands_disjoint : (∀ i ∈ diagonalCommands, i.formatN = false) ∧
    (diagonalCommands.flatMap qrWords).Nodup ∧ ∀ j, j ∈ diagonalCommands.flatMap qrWords := by decide

/-- Settles O18: COLROUND is its four QRs, which name no word twice. -/
theorem colroundMixesColumns : Obligations.ColroundMixesColumns := by
  intro s hf
  obtain ⟨hq, hn, -⟩ := columnCommands_disjoint
  obtain ⟨y, hrun, hrounds, -⟩ := runCommands_of_disjoint_qrs columnCommands hq hn hf
  exact ⟨s.setX y, (exec_colround_eq_runCommands hf).trans hrun, rfl, hrounds 0 4 8 12 (by decide),
    hrounds 1 5 9 13 (by decide), hrounds 2 6 10 14 (by decide), hrounds 3 7 11 15 (by decide)⟩

/-- Settles O19: DIAGROUND is its four QRs, which name no word twice. -/
theorem diagroundMixesDiagonals : Obligations.DiagroundMixesDiagonals := by
  intro s hf
  obtain ⟨hq, hn, -⟩ := diagonalCommands_disjoint
  obtain ⟨y, hrun, hrounds, -⟩ := runCommands_of_disjoint_qrs diagonalCommands hq hn hf
  exact ⟨s.setX y, (exec_diaground_eq_runCommands hf).trans hrun, rfl, hrounds 0 5 10 15 (by decide),
    hrounds 1 6 11 12 (by decide), hrounds 2 7 8 13 (by decide), hrounds 3 4 9 14 (by decide)⟩

/-- COLROUND and then DIAGROUND. -/
theorem runCommands_colround_diaground {s : State} (hf : s.fault = false) (x : Words16) :
    runCommands [.colround, .diaground] (s.setX x) = .next (s.setX (diagonalRound (columnRound x))) := by
  rw [runCommands_cons_of_next (exec_colround_setX hf x), runCommands_cons_of_next (exec_diaground_setX hf _),
    runCommands]

/-- The two rounds in the other order. -/
theorem runCommands_diaground_colround {s : State} (hf : s.fault = false) (x : Words16) :
    runCommands [.diaground, .colround] (s.setX x) = .next (s.setX (columnRound (diagonalRound x))) := by
  rw [runCommands_cons_of_next (exec_diaground_setX hf x), runCommands_cons_of_next (exec_colround_setX hf _),
    runCommands]

/-- Settles O20: the double-round is the column round and then the diagonal round, on X alone. -/
theorem droundIsColumnThenDiagonal : Obligations.DroundIsColumnThenDiagonal := fun s hf =>
  ⟨s.setX (columnRound s.x), s.setX (doubleRound s.x), exec_colround hf, exec_diaground_setX hf (columnRound s.x),
    exec_dround hf, rfl⟩

/-- A matrix with one word set, on which the order of the two rounds tells. -/
def oneWordMatrix : Words16 := (Vector.replicate 16 0).set 0 1

theorem diagonalRound_columnRound_ne :
    diagonalRound (columnRound oneWordMatrix) ≠ columnRound (diagonalRound oneWordMatrix) := by decide +kernel

/-- Settles O21: each round is its four QRs, which name every word once; and the two rounds differ by their order on
a matrix with one word set. -/
theorem roundOrderIsImmaterial : Obligations.RoundOrderIsImmaterial := by
  refine ⟨fun s l hf hp => ?_, fun s l hf hp => ?_, State.reset.setX oneWordMatrix, _, _, rfl,
    runCommands_colround_diaground rfl _, runCommands_diaground_colround rfl _, diagonalRound_columnRound_ne⟩
  · obtain ⟨hq, hn, hall⟩ := columnCommands_disjoint
    rw [runCommands_perm_of_disjoint_qrs hp hq hn hall hf, exec_colround_eq_runCommands hf]
  · obtain ⟨hq, hn, hall⟩ := diagonalCommands_disjoint
    rw [runCommands_perm_of_disjoint_qrs hp hq hn hall hf, exec_diaground_eq_runCommands hf]

/-! ### The bijections (R129) -/

/-- A rotation loses no bit: counted from the top, bit k of the word is bit (k - r) mod 32 of the rotated one. -/
theorem rotateLeft_injective {r : Nat} (hr : r < 32) : Function.Injective fun v : Word => v.rotateLeft r := by
  intro v w h
  apply BitVec.eq_of_getMsbD_eq
  intro k hk
  have hbit : (v.rotateLeft r).getMsbD ((k + 32 - r) % 32) = (w.rotateLeft r).getMsbD ((k + 32 - r) % 32) :=
    congrArg (BitVec.getMsbD · _) h
  have hk' : (r + (k + 32 - r) % 32) % 32 = k := by omega
  simpa [BitVec.getMsbD_rotateLeft, hk', Nat.mod_lt] using hbit

/-- Each ARX step can be undone: by the rotation, the XOR and the addition. -/
theorem arxQuad_injective {r : Nat} (hr : r < 32) : Function.Injective (arxQuad r) := by
  rintro ⟨a, b, c, d⟩ ⟨a', b', c', d'⟩ h
  simp only [arxQuad, Prod.mk.injEq] at h
  obtain ⟨hsum, rfl, rfl, hrot⟩ := h
  obtain rfl : a = a' := add_right_cancel hsum
  have hxor : d ^^^ (a + b) = d' ^^^ (a + b) := rotateLeft_injective hr hrot
  obtain rfl : d = d' := (BitVec.xor_left_inj _).1 hxor
  rfl

theorem turnQuad_injective : Function.Injective turnQuad := by
  rintro ⟨a, b, c, d⟩ ⟨a', b', c', d'⟩ h
  cases h
  rfl

/-- The quarter-round takes no two quadruples of words to the same one. -/
theorem quarterRound_injective {a b c d a' b' c' d' : Word} (h : quarterRound a b c d = quarterRound a' b' c' d') :
    (a, b, c, d) = (a', b', c', d') := by
  have undo : ∀ {r : Nat} {p q}, r < 32 → turnQuad (arxQuad r p) = turnQuad (arxQuad r q) → p = q :=
    fun hr he => arxQuad_injective hr (turnQuad_injective he)
  rw [quarterRound_eq_arxQuad, quarterRound_eq_arxQuad] at h
  exact undo (by decide) (undo (by decide) (undo (by decide) (undo (by decide) h)))

/-- Matrices are finitely many. -/
theorem finite_words16 : Finite Words16 :=
  Finite.of_injective (fun (x : Words16) (i : Fin 16) => x[i]) fun x y h =>
    Vector.ext fun i hi => congrFun h ⟨i, hi⟩

/-- QRSTEPS at distinct indices is a bijection of the matrices: it loses nothing of its four words and keeps the
others, and the matrices are finitely many. -/
theorem qrSteps_bijective {a b c d : Fin 16} (hn : [a, b, c, d].Nodup) : Function.Bijective (qrSteps a b c d) := by
  have := finite_words16
  refine Finite.injective_iff_bijective.1 fun x y h => ?_
  have hquad : quad x a b c d = quad y a b c d := by
    have hx := quarterRounds_qrSteps x hn
    rw [h] at hx
    exact quarterRound_injective (hx.symm.trans (quarterRounds_qrSteps y hn))
  refine Vector.ext fun j hj => ?_
  by_cases hmem : (⟨j, hj⟩ : Fin 16) ∈ [a, b, c, d]
  · exact getElem_eq_of_quad_eq hquad ⟨j, hj⟩ hmem
  · have hx := qrSteps_of_notMem x hmem
    rw [h] at hx
    exact hx.symm.trans (qrSteps_of_notMem y hmem)

theorem columnRound_bijective : Function.Bijective columnRound :=
  (qrSteps_bijective (by decide)).comp ((qrSteps_bijective (by decide)).comp
    ((qrSteps_bijective (by decide)).comp (qrSteps_bijective (by decide))))

theorem diagonalRound_bijective : Function.Bijective diagonalRound :=
  (qrSteps_bijective (by decide)).comp ((qrSteps_bijective (by decide)).comp
    ((qrSteps_bijective (by decide)).comp (qrSteps_bijective (by decide))))

theorem doubleRound_bijective : Function.Bijective doubleRound := diagonalRound_bijective.comp columnRound_bijective

/-- A command that maps X by a bijection and keeps the rest leaves each matrix from exactly one. -/
theorem exists_unique_source {i : Instr} {s : State} {f : Words16 → Words16} (hb : Function.Bijective f)
    (he : ∀ x, exec i (s.setX x) = .next (s.setX (f x))) (y : Words16) :
    ∃ x, exec i (s.setX x) = .next (s.setX y) ∧ ∀ x', exec i (s.setX x') = .next (s.setX y) → x' = x := by
  obtain ⟨x, rfl⟩ := hb.surjective y
  refine ⟨x, he x, fun x' h => hb.injective ?_⟩
  rw [he x'] at h
  exact congrArg State.x (Host.Outcome.next.inj h)

/-- Settles O22: each command maps X by a bijection and keeps the rest. -/
theorem roundsAreBijections : Obligations.RoundsAreBijections := by
  rintro i s y hf (rfl | rfl | rfl | ⟨a, b, c, d, hn, rfl⟩)
  · exact exists_unique_source columnRound_bijective (exec_colround_setX hf) y
  · exact exists_unique_source diagonalRound_bijective (exec_diaground_setX hf) y
  · exact exists_unique_source doubleRound_bijective (exec_dround_setX hf) y
  · exact exists_unique_source (qrSteps_bijective hn) (exec_qr_setX hf hn) y

/-! ### The all-zero matrix (R122, R124, R126, R128, R144) -/

/-- Every ARX step of zeros is zero. -/
theorem arx_zero (p q t : Fin 16) (r : Nat) :
    arx p q t r (Vector.replicate 16 0) = Vector.replicate 16 0 := by
  simp [arx, add32, xor32, rotl32]

theorem qrSteps_zero (a b c d : Fin 16) :
    qrSteps a b c d (Vector.replicate 16 0) = Vector.replicate 16 0 := by
  simp only [qrSteps, arx_zero]

theorem columnRound_zero : columnRound (Vector.replicate 16 0) = Vector.replicate 16 0 := by
  simp only [columnRound, qrSteps_zero]

theorem diagonalRound_zero : diagonalRound (Vector.replicate 16 0) = Vector.replicate 16 0 := by
  simp only [diagonalRound, qrSteps_zero]

theorem doubleRound_zero : doubleRound (Vector.replicate 16 0) = Vector.replicate 16 0 := by
  rw [doubleRound, columnRound_zero, diagonalRound_zero]

theorem repeatTimes_of_fixed {α : Type} {f : α → α} {x : α} (h : f x = x) (n : Nat) : repeatTimes n f x = x := by
  induction n with
  | zero => rfl
  | succ n ih => rw [repeatTimes, h, ih]

theorem addWords_zero : addWords (Vector.replicate 16 0) (Vector.replicate 16 0) = Vector.replicate 16 0 := by
  refine Vector.ext fun i hi => ?_
  simp [addWords, add32]

/-- Settles O27: every ARX step of zeros is zero, and so is the feed-forward. -/
theorem zeroMatrixIsFixed : Obligations.ZeroMatrixIsFixed := by
  rintro i s hf hx (rfl | rfl | rfl | rfl | ⟨a, b, c, d, hn, rfl⟩)
  · exact ⟨_, exec_colround hf, by rw [State.setX_x, hx, columnRound_zero]⟩
  · exact ⟨_, exec_diaground hf, by rw [State.setX_x, hx, diagonalRound_zero]⟩
  · exact ⟨_, exec_dround hf, by rw [State.setX_x, hx, doubleRound_zero]⟩
  · exact ⟨_, exec_block hf, by rw [State.setX_x, hx, repeatTimes_of_fixed doubleRound_zero, addWords_zero]⟩
  · exact ⟨_, exec_qr_of_distinct hf hn, by rw [State.setX_x, hx, qrSteps_zero]⟩

end Sys2Proof.Machine
end

section
/-! PROOFS. The statements of 42_block.md: SNAP (R140), FEEDFWD (R142), BLOCK (R144) and its command sequences (R145).
The sequences of R145 differ only in how a double-round is spelled, so that BLOCK is one sequence for any spelling. -/

namespace Sys2Proof.Machine

open Claim

/-! ### SNAP and FEEDFWD (R140, R142) -/

/-- Settles O23: SNAP answers with X in S. -/
theorem snapCopiesMatrix : Obligations.SnapCopiesMatrix := fun _ hf => ⟨_, exec_snap hf, fun _ => rfl, rfl⟩

theorem addWords_getElem (x y : Words16) (i : Fin 16) : (addWords x y)[i] = add32 x[i] y[i] := by
  simp [addWords]

/-- Settles O24: FEEDFWD answers with the words of `addWords` in X, and each is a sum modulo 2^32 (R9). -/
theorem feedfwdAddsSnapshot : Obligations.FeedfwdAddsSnapshot := by
  intro s hf
  refine ⟨_, exec_feedfwd hf, rfl, fun i => ?_⟩
  rw [State.setX_x, addWords_getElem, add32, BitVec.toNat_add]

/-! ### Sequences of commands (R145) -/

/-- A sequence of commands goes on from what its first part left. -/
theorem runCommands_append_of_next {l : List Instr} {s t : State} (h : runCommands l s = .next t) (l' : List Instr) :
    runCommands (l ++ l') s = runCommands l' t := by
  induction l generalizing s with
  | nil =>
    cases h
    rfl
  | cons i rest ih =>
    obtain ⟨u, hu, -⟩ := commandsWriteOnlyTheirRegisters i s
    rw [runCommands_cons_of_next hu] at h
    rw [List.cons_append, runCommands_cons_of_next hu, ih h]

/-- The commands `l`, issued from `s` with any X, apply `f` to X and change nothing else. -/
def MapsMatrix (l : List Instr) (f : Words16 → Words16) (s : State) : Prop :=
  ∀ x, runCommands l (s.setX x) = .next (s.setX (f x))

section

variable {s : State}

theorem mapsMatrix_singleton {i : Instr} {f : Words16 → Words16}
    (h : ∀ x, exec i (s.setX x) = .next (s.setX (f x))) : MapsMatrix [i] f s := fun x =>
  runCommands_cons_of_next (h x) []

theorem MapsMatrix.append {l l' : List Instr} {f g : Words16 → Words16} (h : MapsMatrix l f s)
    (h' : MapsMatrix l' g s) : MapsMatrix (l ++ l') (g ∘ f) s := fun x =>
  (runCommands_append_of_next (h x) l').trans (h' (f x))

/-- Commands issued n times apply their map n times (R11). -/
theorem MapsMatrix.replicate {l : List Instr} {f : Words16 → Words16} (h : MapsMatrix l f s) (n : Nat) :
    MapsMatrix (List.replicate n l).flatten (repeatTimes n f) s := by
  induction n with
  | zero => exact fun _ => rfl
  | succ n ih =>
    rw [List.replicate_succ, List.flatten_cons]
    exact h.append ih

/-! ### The spellings of a double-round (R145) -/

theorem mapsMatrix_dround (hf : s.fault = false) : MapsMatrix [.dround] doubleRound s :=
  mapsMatrix_singleton (exec_dround_setX hf)

theorem mapsMatrix_colround_diaground (hf : s.fault = false) : MapsMatrix [.colround, .diaground] doubleRound s :=
  runCommands_colround_diaground hf

theorem mapsMatrix_columnCommands (hf : s.fault = false) : MapsMatrix columnCommands columnRound s := fun x =>
  (exec_colround_eq_runCommands (s := s.setX x) hf).symm.trans (exec_colround_setX hf x)

theorem mapsMatrix_diagonalCommands (hf : s.fault = false) : MapsMatrix diagonalCommands diagonalRound s := fun x =>
  (exec_diaground_eq_runCommands (s := s.setX x) hf).symm.trans (exec_diaground_setX hf x)

theorem mapsMatrix_roundCommands (hf : s.fault = false) :
    MapsMatrix (columnCommands ++ diagonalCommands) doubleRound s :=
  (mapsMatrix_columnCommands hf).append (mapsMatrix_diagonalCommands hf)

end

/-! ### BLOCK (R144, R145) -/

/-- The snapshot, commands that apply `f` to X whatever S holds, and the feed-forward: X is added to its image. -/
theorem runCommands_snap_feedfwd {s : State} (hf : s.fault = false) {l : List Instr} {f : Words16 → Words16}
    (h : MapsMatrix l f (s.setSnap s.x)) :
    runCommands (.snap :: l ++ [.feedfwd]) s = .next ((s.setSnap s.x).setX (addWords (f s.x) s.x)) := by
  have hrounds : runCommands l (s.setSnap s.x) = .next ((s.setSnap s.x).setX (f s.x)) := h s.x
  have hfeed := exec_feedfwd (s := (s.setSnap s.x).setX (f s.x)) hf
  rw [List.cons_append, runCommands_cons_of_next (exec_snap hf), runCommands_append_of_next hrounds,
    runCommands_cons_of_next hfeed]
  rfl

/-- BLOCK is SNAP, ten times a spelling of the double-round, and FEEDFWD. -/
theorem exec_block_eq_runCommands {s : State} (hf : s.fault = false) {l : List Instr}
    (h : MapsMatrix l doubleRound (s.setSnap s.x)) :
    runCommands (.snap :: (List.replicate 10 l).flatten ++ [.feedfwd]) s = exec .block s :=
  (runCommands_snap_feedfwd hf (h.replicate 10)).trans (exec_block hf).symm

/-- Settles O25: the three sequences are one, each with a spelling of the double-round. -/
theorem blockIsItsCommandSequence : Obligations.BlockIsItsCommandSequence := by
  intro s hf
  have hf' : (s.setSnap s.x).fault = false := hf
  refine ⟨_, exec_block hf, ?_, ?_, ?_⟩
  · rw [← List.flatten_replicate_singleton, exec_block_eq_runCommands hf (mapsMatrix_dround hf'), exec_block hf]
  · rw [exec_block_eq_runCommands hf (mapsMatrix_colround_diaground hf'), exec_block hf]
  · rw [exec_block_eq_runCommands hf (mapsMatrix_roundCommands hf'), exec_block hf]

/-- Settles O26: BLOCK answers with a function of X in X, and with X in S. -/
theorem blockDependsOnMatrixOnly : Obligations.BlockDependsOnMatrixOnly := by
  intro s s' hf hf' hx
  refine ⟨_, _, exec_block hf, exec_block hf', ?_⟩
  rw [hx]
  generalize addWords (repeatTimes 10 doubleRound s.x) s.x = y
  exact ⟨rfl, rfl, rfl⟩

end Sys2Proof.Machine
end

section
/-! PROOFS. The statements of 43_keystream.md: XORKS (R160, R162), CTRINC (R164), STEP and its command sequence
(R166, R167), the counter (R169, R170), and the laws of the host program (R168, R172). Those of a chunk come from the
byte view of DBUF, and those of a message from `encrypt_eq`, which makes a message one XOR with a keystream. -/

namespace Sys2Proof.Machine

open Claim

/-! ### The bytes of DBUF (R29, R160) -/

theorem byteNumber_eq_dbufByte (ws : Words16) (j : Fin 64) : byteNumber ws j = (dbufByte ws j).toNat :=
  (byteOf_toNat _ _).symm

/-- A keystream byte is read off X as a data byte is off DBUF. -/
theorem keystreamByte_eq_dbufByte : keystreamByte = dbufByte := rfl

theorem xoredBytes_xorBytes (x dbuf : Words16) {n : Nat} (h : n ≤ 64) : XoredBytes n x dbuf (xorBytes x n h dbuf) := by
  intro j
  simp only [byteNumber_eq_dbufByte, dbufByte_xorBytes, keystreamByte_eq_dbufByte]
  split
  · exact BitVec.toNat_xor _ _
  · rfl

/-- The same block twice cancels byte by byte (R162). -/
theorem Claim.XoredBytes.restores {n : Nat} {x d d' d'' : Words16} (h : XoredBytes n x d d')
    (h' : XoredBytes n x d' d'') : d'' = d := by
  refine words_ext_bytes d'' d fun j => BitVec.eq_of_toNat_eq ?_
  change (dbufByte d'' j).toNat = (dbufByte d j).toNat
  rw [← byteNumber_eq_dbufByte, ← byteNumber_eq_dbufByte, h' j, h j]
  split
  · exact Nat.xor_xor_cancel_right _ _
  · rfl

/-- The same block cancels between two buffers, byte by byte (R172). -/
theorem Claim.XoredBytes.xor_cancel {n : Nat} {x d d' e e' : Words16} (h : XoredBytes n x d d')
    (k : XoredBytes n x e e') (j : Fin 64) :
    byteNumber d' j ^^^ byteNumber e' j = byteNumber d j ^^^ byteNumber e j := by
  rw [h j, k j]
  split
  · rw [← Nat.xor_assoc, Nat.xor_right_comm (byteNumber d j), Nat.xor_xor_cancel_right]
  · rfl

/-! ### XORKS and CTRINC (R162, R164) -/

/-- Settles O28: XORKS answers with the XORed bytes in DBUF. -/
theorem xorksXorsFirstBytes : Obligations.XorksXorsFirstBytes := fun s hf hl =>
  ⟨_, exec_xorks hf hl, rfl, xoredBytes_xorBytes s.x s.dbuf hl⟩

/-- Settles O29: the second XORKS finds the same X and LEN. -/
theorem xorksTwiceRestores : Obligations.XorksTwiceRestores := by
  intro s hf hl
  have hxorks : ∀ d, exec .xorks (s.setDbuf d) = .next (s.setDbuf (xorBytes s.x s.len.toNat hl d)) := fun d =>
    exec_xorks (s := s.setDbuf d) hf hl
  have hrestores := (xoredBytes_xorBytes s.x s.dbuf hl).restores (xoredBytes_xorBytes s.x _ hl)
  rw [runCommands_cons_of_next (exec_xorks hf hl), runCommands_cons_of_next (hxorks _), hrestores]
  rfl

/-- Settles O30, by the length check that comes before any write. -/
theorem longChunkFaults : Obligations.LongChunkFaults := fun _ hf hl => exec_of_long hf hl

/-- The counter's increment as a number: it wraps (R9, R164). -/
theorem add32_one_toNat (c : Word) : (add32 c 1).toNat = (c.toNat + 1) % 2 ^ 32 := BitVec.toNat_add c 1

/-- Settles O31: CTRINC answers with the sum in CTR. -/
theorem ctrincWraps : Obligations.CtrincWraps := fun s hf => ⟨_, exec_ctrinc hf, rfl, add32_one_toNat s.ctr⟩

/-! ### STEP and its command sequence (R167) -/

/-- The state that INIT and then BLOCK leave: the block in X, the matrix it was made from in S. -/
def blockMade (s : State) : State := (s.setX (stepBlock s)).setSnap (initialMatrix s.key s.nonce s.ctr)

section

variable {s : State}

theorem blockMade_fault (hf : s.fault = false) : (blockMade s).fault = false := by simp [blockMade, hf]

theorem blockMade_len : (blockMade s).len = s.len := by simp [blockMade]

theorem exec_block_setX (hf : s.fault = false) (x : Words16) : exec .block (s.setX x) =
    .next ((s.setX (addWords (repeatTimes 10 doubleRound x) x)).setSnap x) := exec_block hf

theorem runCommands_init_block (hf : s.fault = false) (l : List Instr) :
    runCommands (.init :: .block :: l) s = runCommands l (blockMade s) := by
  rw [runCommands_cons_of_next (exec_init hf), runCommands_cons_of_next (exec_block_setX hf _)]
  simp only [blockMade, stepBlock, keystreamBlock]

theorem runCommands_xorks_ctrinc (hf : s.fault = false) (hl : s.len.toNat ≤ 64) :
    runCommands [.xorks, .ctrinc] s =
      .next ((s.setDbuf (xorBytes s.x s.len.toNat hl s.dbuf)).setCtr (add32 s.ctr 1)) := by
  have hctrinc : ∀ d, exec .ctrinc (s.setDbuf d) = .next ((s.setDbuf d).setCtr (add32 s.ctr 1)) := fun d =>
    exec_ctrinc (s := s.setDbuf d) hf
  rw [runCommands_cons_of_next (exec_xorks hf hl), runCommands_cons_of_next (hctrinc _)]
  rfl

/-- A chunk that fits: XORKS and CTRINC do to the state of INIT and BLOCK what STEP does. -/
theorem runCommands_stepSequence (hf : s.fault = false) (hl : s.len.toNat ≤ 64) :
    runCommands [.init, .block, .xorks, .ctrinc] s = exec .step s := by
  have hl' : (blockMade s).len.toNat ≤ 64 := by rwa [blockMade_len]
  rw [runCommands_init_block hf, runCommands_xorks_ctrinc (blockMade_fault hf) hl', exec_step hf hl]
  simp only [blockMade, State.setSnap_x, State.setX_x, State.setSnap_len, State.setX_len, State.setSnap_dbuf,
    State.setX_dbuf, State.setSnap_ctr, State.setX_ctr]

/-- A chunk too long stops the sequence at XORKS, and CTRINC is then ignored (R195). -/
theorem runCommands_stepSequence_of_long (hf : s.fault = false) (hl : 64 < s.len.toNat) :
    runCommands [.init, .block, .xorks, .ctrinc] s =
      .next ((blockMade s).setRecord FaultCause.badLen.code (encode .xorks)) := by
  have hl' : 64 < (blockMade s).len.toNat := by rwa [blockMade_len]
  have hctrinc := exec_of_fault .ctrinc (State.setRecord_fault (blockMade s) FaultCause.badLen.code (encode .xorks))
    (by decide)
  rw [runCommands_init_block hf, runCommands_cons_of_next (exec_of_long (blockMade_fault hf) hl').1,
    runCommands_cons_of_next hctrinc]
  rfl

end

/-- Settles O32, by where the two sequences check LEN. -/
theorem stepIsItsCommandSequence : Obligations.StepIsItsCommandSequence := by
  refine ⟨fun s hf hl => ?_, fun s hf hl => ?_⟩
  · exact ⟨_, exec_step hf hl, (runCommands_stepSequence hf hl).trans (exec_step hf hl), by simp [hf]⟩
  · exact ⟨_, _, _, (exec_of_long hf hl).2, ⟨⟨rfl, rfl, rfl, rfl, rfl⟩, rfl, rfl⟩, rfl, runCommands_init_block hf [],
      blockMade_fault hf, runCommands_stepSequence_of_long hf hl, rfl, by simp [blockMade]⟩

/-! ### One chunk (R166) -/

/-- What STEP makes of a chunk that fits: the frame of R38, and each register it writes. -/
structure Stepped (s t : State) : Prop where
  writes : WritesOnly .step s t
  x : t.x = stepBlock s
  snap : t.snap = initialMatrix s.key s.nonce s.ctr
  bytes : XoredBytes s.len.toNat (stepBlock s) s.dbuf t.dbuf
  ctr : t.ctr = add32 s.ctr 1

section

variable {s t : State}

theorem exec_step_stepped (hf : s.fault = false) (hl : s.len.toNat ≤ 64) :
    ∃ t, exec .step s = .next t ∧ Stepped s t := by
  have hw : ∀ x m d c, WritesOnly .step s ((((s.setX x).setSnap m).setDbuf d).setCtr c) := fun _ _ _ _ => rfl
  refine ⟨_, exec_step hf hl, hw _ _ _ _, by simp, by simp, ?_, by simp⟩
  rw [State.setCtr_dbuf, State.setDbuf_dbuf]
  exact xoredBytes_xorBytes _ _ hl

theorem Stepped.keeps (h : Stepped s t) :
    t.key = s.key ∧ t.nonce = s.nonce ∧ t.len = s.len ∧ t.fault = s.fault := by
  have e : t = _ := h.writes
  rw [e]
  exact ⟨rfl, rfl, rfl, rfl⟩

theorem Stepped.ctr_toNat (h : Stepped s t) : t.ctr.toNat = (s.ctr.toNat + 1) % 2 ^ 32 := by
  rw [h.ctr, add32_one_toNat]

theorem stepBlock_congr {s' : State} (hkey : s'.key = s.key) (hnonce : s'.nonce = s.nonce) (hctr : s'.ctr = s.ctr) :
    stepBlock s' = stepBlock s := by
  rw [stepBlock, stepBlock, hkey, hnonce, hctr]

end

/-- Settles O33: BLOCK, from the matrix that STEP leaves in S, makes the block that STEP leaves in X. -/
theorem stepProcessesOneChunk : Obligations.StepProcessesOneChunk := by
  intro s hf hl
  obtain ⟨t, ht, h⟩ := exec_step_stepped hf hl
  refine ⟨t, _, ht, h.writes, h.snap ▸ initialMatrix_spec s.key s.nonce s.ctr, exec_block_setX hf t.snap, ?_,
    h.x ▸ h.bytes, ?_⟩
  · simp only [State.setSnap_x, State.setX_x, h.x, h.snap, stepBlock, keystreamBlock]
  · rw [h.ctr_toNat, h.snap]
    rfl

/-- Settles O34: with the counter set back, the second STEP makes the same block. -/
theorem chunkRoundTrip : Obligations.ChunkRoundTrip := by
  intro s hf hl
  obtain ⟨t, ht, h⟩ := exec_step_stepped hf hl
  obtain ⟨hkey, hnonce, hlen, hfault⟩ := h.keeps
  obtain ⟨u, hu, k⟩ := exec_step_stepped (s := t.setCtr s.ctr) (hfault.trans hf) (hlen ▸ hl)
  have hblock : stepBlock (t.setCtr s.ctr) = stepBlock s := stepBlock_congr hkey hnonce rfl
  have hbytes := k.bytes
  rw [State.setCtr_len, State.setCtr_dbuf, hblock, hlen] at hbytes
  exact ⟨t, u, ht, hu, h.bytes.restores hbytes, k.ctr.trans h.ctr.symm, (k.x.trans hblock).trans h.x.symm⟩

/-- Settles O35: the two STEPs make the same block. -/
theorem keystreamIsIndependentOfData : Obligations.KeystreamIsIndependentOfData := by
  intro s s' hf hf' hl hkey hnonce hctr hlen
  obtain ⟨t, ht, h⟩ := exec_step_stepped hf hl
  obtain ⟨t', ht', h'⟩ := exec_step_stepped hf' (hlen ▸ hl)
  have hblock : stepBlock s' = stepBlock s := stepBlock_congr hkey hnonce hctr
  have hbytes := h'.bytes
  rw [hblock, hlen] at hbytes
  exact ⟨t, t', ht, ht', (h'.x.trans hblock).trans h.x.symm, h.bytes.xor_cancel hbytes⟩

/-! ### The counter over many chunks (R169, R170) -/

theorem runCommands_concat_of_next {l : List Instr} {i : Instr} {s t u : State} (hl : runCommands l s = .next t)
    (hi : exec i t = .next u) : runCommands (l ++ [i]) s = .next u :=
  (runCommands_append_of_next hl [i]).trans (runCommands_cons_of_next hi [])

/-- n STEPs run without a fault, keep LEN, and add n to the counter modulo 2^32. -/
theorem runCommands_steps {s : State} (hf : s.fault = false) (hl : s.len.toNat ≤ 64) (n : Nat) :
    ∃ t, runCommands (List.replicate n .step) s = .next t ∧ t.fault = false ∧ t.len = s.len ∧
      t.ctr.toNat = (s.ctr.toNat + n) % 2 ^ 32 := by
  induction n with
  | zero => exact ⟨s, rfl, hf, rfl, (Nat.mod_eq_of_lt s.ctr.isLt).symm⟩
  | succ n ih =>
    obtain ⟨t, ht, tf, tl, tc⟩ := ih
    obtain ⟨u, hu, h⟩ := exec_step_stepped tf (tl ▸ hl)
    obtain ⟨-, -, hlen, hfault⟩ := h.keeps
    refine ⟨u, ?_, hfault.trans tf, hlen.trans tl, ?_⟩
    · rw [List.replicate_succ', runCommands_concat_of_next ht hu]
    · rw [h.ctr_toNat, tc, Nat.mod_add_mod, Nat.add_assoc]

/-- Settles O36: the last STEP finds the counter that the STEPs before it left. -/
theorem stepsAdvanceCounter : Obligations.StepsAdvanceCounter := by
  intro n s hf hl
  obtain ⟨t, ht, tf, -, tc⟩ := runCommands_steps hf hl n
  refine ⟨t, ht, tf, tc, fun hn => ?_⟩
  obtain ⟨m, rfl⟩ := Nat.exists_eq_succ_of_ne_zero hn.ne'
  obtain ⟨u, hu, uf, ul, uc⟩ := runCommands_steps hf hl m
  obtain ⟨v, hv, h⟩ := exec_step_stepped uf (ul ▸ hl)
  rw [List.replicate_succ', runCommands_concat_of_next hu hv] at ht
  obtain rfl : v = t := by injection ht
  rw [h.snap]
  exact uc

/-! ### The laws of a message (R172) -/

/-- A message XORed byte by byte with a keystream. -/
def xorStream (ks : Nat → Byte) (data : List Byte) : List Byte := data.mapIdx fun j b => b ^^^ ks j

theorem length_xorStream (ks : Nat → Byte) (data : List Byte) : (xorStream ks data).length = data.length :=
  List.length_mapIdx

theorem getElem?_xorStream (ks : Nat → Byte) (data : List Byte) (j : Nat) :
    (xorStream ks data)[j]? = (data[j]?).map (· ^^^ ks j) := List.getElem?_mapIdx

theorem xorStream_xorStream (ks : Nat → Byte) (data : List Byte) : xorStream ks (xorStream ks data) = data := by
  apply List.ext_getElem?
  intro j
  rw [getElem?_xorStream, getElem?_xorStream, Option.map_map]
  cases data[j]? with
  | none => rfl
  | some b => simp

theorem zipWith_xorStream (ks : Nat → Byte) (data data' : List Byte) :
    List.zipWith (fun a b => a ^^^ b) (xorStream ks data) (xorStream ks data') =
      List.zipWith (fun a b => a ^^^ b) data data' := by
  apply List.ext_getElem?
  intro j
  rw [List.getElem?_zipWith, List.getElem?_zipWith, getElem?_xorStream, getElem?_xorStream]
  cases data[j]? with
  | none => rfl
  | some a =>
    cases data'[j]? with
    | none => rfl
    | some b =>
      have hcancel : a ^^^ ks j ^^^ (b ^^^ ks j) = a ^^^ b := by
        rw [BitVec.xor_comm b, BitVec.xor_assoc, ← BitVec.xor_assoc (ks j), BitVec.xor_self, BitVec.zero_xor]
      exact congrArg some hcancel

/-- `encrypt_eq` where the counter is a number the block accepts (R171). -/
theorem encrypt_eq_xorStream {s : State} (hf : s.fault = false) {c : Nat} (hc : s.params.restrictCtr = true → c ≤ 1)
    (data key nonce : List Byte) : encrypt s data key nonce c =
      some (xorStream (messageKeystream (keyOf key) (nonceOf nonce) (BitVec.ofNat 32 c)) data) := by
  refine encrypt_eq s hf data key nonce c ?_
  cases hr : s.params.restrictCtr with
  | false => exact .inl rfl
  | true => exact .inr ((BitVec.toNat_ofNat c 32).le.trans ((Nat.mod_le _ _).trans (hc hr)))

/-- Settles O37: either block XORs the message with the same keystream. -/
theorem messageLawsHold : Obligations.MessageLawsHold := by
  intro s s' data key nonce c hf hf' _ _ _ hc hc'
  refine ⟨_, encrypt_eq_xorStream hf hc data key nonce, encrypt_eq_xorStream hf' hc' data key nonce,
    length_xorStream _ _, ?_, fun data' _ => ?_⟩
  · rw [decrypt_eq_encrypt, encrypt_eq_xorStream hf' hc', xorStream_xorStream]
  · exact ⟨_, encrypt_eq_xorStream hf' hc' data' key nonce, zipWith_xorStream _ data data'⟩

/-! ### A message and its chunks (R168, R169) -/

theorem chunkOf_zero (data : List Byte) : chunkOf data 0 = data.take 64 := rfl

theorem chunkOf_succ (data : List Byte) (k : Nat) : chunkOf data (k + 1) = chunkOf (data.drop 64) k := by
  rw [chunkOf, chunkOf, List.drop_drop, Nat.mul_succ, Nat.add_comm]

/-- Chunk k as its own message: XORed with the block of its counter. -/
def chunkOutput (key : KeyWords) (nonce : NonceWords) (ctr : Word) (data : List Byte) (k : Nat) : List Byte :=
  xorStream (messageKeystream key nonce (ctr + BitVec.ofNat 32 k)) (chunkOf data k)

/-- A chunk is no longer than a block, so it uses the first block alone. -/
theorem xorStream_take (key : KeyWords) (nonce : NonceWords) (ctr : Word) (data : List Byte) :
    xorStream (messageKeystream key nonce ctr) (data.take 64) =
      xorStream (keystreamAt (keystreamBlock key nonce ctr)) (data.take 64) := by
  apply List.ext_getElem?
  intro j
  rw [getElem?_xorStream, getElem?_xorStream, List.getElem?_take]
  split
  · rename_i hj
    rw [messageKeystream_low _ _ _ hj]
  · rw [Option.map_none, Option.map_none]

theorem add32_one_add_ofNat (ctr : Word) (k : Nat) :
    add32 ctr 1 + BitVec.ofNat 32 k = ctr + BitVec.ofNat 32 (k + 1) := by
  rw [add32, BitVec.add_assoc, BitVec.ofNat_add, BitVec.add_comm (BitVec.ofNat 32 k)]
  rfl

theorem chunkOutput_zero (key : KeyWords) (nonce : NonceWords) (ctr : Word) (data : List Byte) :
    chunkOutput key nonce ctr data 0 = xorStream (keystreamAt (keystreamBlock key nonce ctr)) (data.take 64) := by
  rw [chunkOutput, chunkOf_zero, BitVec.add_zero, xorStream_take]

theorem chunkOutput_succ (key : KeyWords) (nonce : NonceWords) (ctr : Word) (data : List Byte) (k : Nat) :
    chunkOutput key nonce ctr data (k + 1) = chunkOutput key nonce (add32 ctr 1) (data.drop 64) k := by
  rw [chunkOutput, chunkOutput, chunkOf_succ, add32_one_add_ofNat]

/-- A message's output is the outputs of its chunks in order: the first chunk, and the rest from the next counter. -/
theorem xorStream_eq_flatten_chunkOutput (key : KeyWords) (nonce : NonceWords) (n : Nat) (ctr : Word)
    (data : List Byte) (hn : n = (data.length + 63) / 64) :
    xorStream (messageKeystream key nonce ctr) data =
      ((List.range n).map (chunkOutput key nonce ctr data)).flatten := by
  induction n generalizing ctr data with
  | zero =>
    obtain rfl : data = [] := List.eq_nil_of_length_eq_zero (by omega)
    rfl
  | succ n ih =>
    have hrest := ih (add32 ctr 1) (data.drop 64) (by rw [List.length_drop]; omega)
    have hsplit : xorStream (messageKeystream key nonce ctr) data =
        xorStream (keystreamAt (keystreamBlock key nonce ctr)) (data.take 64) ++
          xorStream (messageKeystream key nonce (add32 ctr 1)) (data.drop 64) :=
      mapIdx_messageKeystream key nonce ctr data
    rw [hsplit, hrest, List.range_succ_eq_map, List.map_cons, List.map_map, List.flatten_cons, chunkOutput_zero]
    simp only [Function.comp_def, chunkOutput_succ]

/-- Settles O38: chunk k, called with its own counter, is XORed with the bytes that the message has there. -/
theorem messageIsItsChunks : Obligations.MessageIsItsChunks := by
  intro s data key nonce c hf hr _ _ _
  have hc : ∀ c', s.params.restrictCtr = true → c' ≤ 1 := fun _ h => absurd (h.symm.trans hr) (by decide)
  refine ⟨(List.range ((data.length + 63) / 64)).map
    (chunkOutput (keyOf key) (nonceOf nonce) (BitVec.ofNat 32 c) data), by simp, fun k hk => ?_, ?_⟩
  · have hctr : BitVec.ofNat 32 ((c + k) % 2 ^ 32) = BitVec.ofNat 32 c + BitVec.ofNat 32 k := by
      rw [← BitVec.ofNat_add]
      exact BitVec.eq_of_toNat_eq (by simp)
    rw [encrypt_eq_xorStream hf (hc _), hctr, List.getElem_map, List.getElem_range]
    rfl
  · rw [encrypt_eq_xorStream hf (hc c), xorStream_eq_flatten_chunkOutput _ _ _ _ _ rfl]

end Sys2Proof.Machine
end

section
/-! PROOFS. The statements of 44_control.md: NOP (R180) and SCRUB (R182, R184). SCRUB answers with
`State.zeroSecrets`: every secret in it is 0, and it is the same for any two states that differ in their secrets alone. -/

namespace Sys2Proof.Machine

open Claim

/-! ### NOP (R180) -/

/-- Settles O10: with a fault recorded NOP is ignored, and without one its effect is to leave the state. -/
theorem nopHasNoEffect : Obligations.NopHasNoEffect := by
  intro s
  cases hf : s.fault with
  | false => exact exec_of_clear .nop hf
  | true => exact exec_of_fault .nop hf (by decide)

/-! ### SCRUB (R182, R184) -/

theorem allZero_zeroSecrets (s : State) : AllZero s.zeroSecrets := by simp [AllZero]

/-- Nothing of the secrets is left: the scrubbed state is made of the fault record, the parameters and the host's side
alone (R35). -/
theorem zeroSecrets_congr {s t : State} (hr : SameRecord s t) (hs : SameSurroundings s t) :
    s.zeroSecrets = t.zeroSecrets := by
  obtain ⟨hfault, hfcode, hfinfo⟩ := hr
  obtain ⟨hparams, hpending, hpc, hresponses⟩ := hs
  cases s
  cases t
  subst hfault hfcode hfinfo hparams hpending hpc hresponses
  rfl

/-- Settles O11: SCRUB is not frozen by a fault, and answers with the secrets zeroed. -/
theorem scrubZeroesSecrets : Obligations.ScrubZeroesSecrets := fun s =>
  ⟨s.zeroSecrets, exec_scrub s, allZero_zeroSecrets s, ⟨rfl, rfl, rfl⟩, ⟨rfl, rfl, rfl, rfl⟩⟩

/-- The step of a Write of the SCRUB word to CMD, faulted or not. -/
theorem step_scrub {s : State} {rest : List Input}
    (h : s.pending = .txn (.write s.params.pBase 4 (encode .scrub)) :: rest) :
    step s = .next ((s.zeroSecrets.setPending rest).complete .okWrite) := by
  rw [step_command h, command_of_decode (decode_encode .scrub), exec_scrub]
  rfl

/-- Settles O12: each state's step answers with its scrubbed state, and the two scrubbed states are one. -/
theorem scrubHidesSecrets : Obligations.ScrubHidesSecrets := by
  intro s t rest hr hs hnext
  have ⟨hparams, hpending, _, _⟩ := hs
  have hnext' : t.pending = .txn (.write t.params.pBase 4 (encode .scrub)) :: rest := by
    rw [hpending, hparams]
    exact hnext
  have hstep := step_scrub hnext
  exact ⟨by rw [hstep, step_scrub hnext', zeroSecrets_congr hr hs], _, hstep⟩

end Sys2Proof.Machine
end

section
/-! PROOFS. The statements of 60_exceptions.md on a taken fault: the freeze of the commands (R195), the first fault's
record (R193), and that a fault changes no register but STATUS and FINFO (R194). The last two are first proved of a
Write to CMD, then of each way a transaction can end. -/

namespace Sys2Proof.Machine

open Claim

/-! ### The freeze (R195) -/

theorem command_of_frozen {s : State} {w : Word} (hf : s.fault = true) (hw : w ≠ scrubWord) :
    command w s = .next s := by
  simp [command, hf, hw]

/-- Settles O41: the freeze of exec, the freeze at CMD, and SCRUB's step, which no freeze stops. -/
theorem faultFreezesCommands : Obligations.FaultFreezesCommands := by
  refine ⟨fun i s hf hi => exec_of_fault i hf hi, fun s w rest hf hw hp => ?_, fun s rest _ hp => ?_⟩
  · rw [step_command hp, command_of_frozen (s := s.setPending rest) hf hw]
    rfl
  · exact ⟨_, exec_scrub _, step_scrub hp⟩

/-! ### The record of the first fault (R193) -/

/-- While FAULT = 1 a Write to CMD is ignored or runs SCRUB, and neither reaches the record. -/
theorem command_keeps_record {s t : State} {w : Word} (hf : s.fault = true) (h : command w s = .next t) :
    SameRecord s t := by
  by_cases hw : w = scrubWord
  · have hscrub : command w s = .next s.zeroSecrets := by rw [hw]; exact command_of_decode (decode_encode .scrub) s
    obtain rfl : s.zeroSecrets = t := by simpa using hscrub.symm.trans h
    exact ⟨rfl, rfl, rfl⟩
  · obtain rfl : s = t := by simpa [command_of_frozen hf hw] using h
    exact ⟨rfl, rfl, rfl⟩

theorem Transacted.keeps_record {x : Transaction} {s t : State} (hf : s.fault = true) (h : Transacted x s t) :
    SameRecord s t := by
  cases h with
  | outside => exact ⟨rfl, rfl, rfl⟩
  | read r => exact ⟨rfl, rfl, rfl⟩
  | refused kind off size _ =>
    rw [busError, raise_of_fault hf]
    exact ⟨rfl, rfl, rfl⟩
  | written u hu => exact hu.keeps.1
  | badCounter v _ _ =>
    rw [raise_of_fault hf]
    exact ⟨rfl, rfl, rfl⟩
  | commanded w u _ hu => exact (command_keeps_record hf hu : SameRecord s u)

/-- Settles O42, by the ways a transaction can end while FAULT = 1. -/
theorem firstFaultIsKept : Obligations.FirstFaultIsKept := by
  intro s x rest hf hp
  obtain ⟨t, ht, hc⟩ := transact_cases x (s.setPending rest)
  exact ⟨t, (step_input hp).trans ht, hc.keeps_record (s := s.setPending rest) hf⟩

/-! ### Faults are precise (R194) -/

theorem SameSecrets.refl (s : State) : SameSecrets s s := ⟨⟨rfl, rfl, rfl, rfl, rfl⟩, rfl, rfl⟩

/-- A Write to CMD that changes FAULT has recorded an illegal word or a command's own fault, and nothing else: no row
of R38's table holds FAULT, and SCRUB leaves it. -/
theorem sameSecrets_of_command_fault_ne {s t : State} {w : Word} (h : command w s = .next t)
    (hne : t.fault ≠ s.fault) : SameSecrets s t := by
  rcases command_cases w s with ⟨-, e⟩ | ⟨-, -, e⟩ | ⟨hf, i, -, e⟩ | ⟨-, -, e⟩ <;>
    obtain rfl : _ = t := by simpa using e.symm.trans h
  · exact .refl s
  · exact .refl s
  · rcases commandEffect_writes i hf with hw | ⟨c, -, e⟩
    · exact absurd (sameRecord_of_writesOnly hw).1 hne
    · rw [e]
      exact .refl s
  · exact absurd rfl hne

/-- A transaction has one response. -/
theorem AnsweredWith.response_eq {s t : State} {q r : Response} (h : AnsweredWith s t q)
    (hr : t.responses = s.responses ++ [r]) : q = r := by
  obtain ⟨-, -, hq⟩ := h.completes
  simpa using hq.symm.trans hr

/-- A transaction that changes FAULT or is answered ERR changes no secret-carrying register. The Writes that do change
one are answered OK, and leave FAULT. -/
theorem Transacted.sameSecrets {x : Transaction} {s t : State} (h : Transacted x s t)
    (hfault : t.fault ≠ s.fault ∨ t.responses = s.responses ++ [.err]) : SameSecrets s t := by
  cases h with
  | outside => exact .refl s
  | read r => exact .refl s
  | refused kind off size _ => exact (raise_keeps s _ _).1
  | badCounter v _ _ => exact (raise_keeps s _ v).1
  | written u hu =>
    obtain ⟨⟨hf, -, -⟩, hs⟩ := hu.keeps
    rcases hfault with hne | herr
    · exact absurd hf hne
    · exact nomatch AnsweredWith.response_eq ⟨u, hs, rfl⟩ herr
  | commanded w u _ hu =>
    rcases hfault with hne | herr
    · exact (sameSecrets_of_command_fault_ne hu hne : SameSecrets s u)
    · exact nomatch AnsweredWith.response_eq ⟨u, command_surroundings hu, rfl⟩ herr

/-- `transact_cases` for a state already known to follow. -/
theorem transacted_of_step {s t : State} {x : Transaction} {rest : List Input} (hp : NextInput s (.txn x) rest)
    (hst : step s = .next t) : Transacted x (s.setPending rest) t := by
  obtain ⟨u, hu, hc⟩ := transact_cases x (s.setPending rest)
  obtain rfl : u = t := by simpa using ((step_input hp).trans hu).symm.trans hst
  exact hc

/-- Settles O43: a restricted Write to CTR by its own statement (R57), which a faulted block answers OK with its record
kept; any other fault by the ways a transaction can end. -/
theorem faultsArePrecise : Obligations.FaultsArePrecise := by
  intro s t x rest hp hst hfault
  constructor
  · rcases hfault with hne | herr | ⟨hr, v, hv, rfl⟩
    · exact (transacted_of_step hp hst).sameSecrets (.inl hne)
    · exact (transacted_of_step hp hst).sameSecrets (.inr herr)
    · have hctr := (writeToCounter s v rest hp).1 ⟨hr, hv⟩
      obtain rfl : _ = t := by simpa using hctr.symm.trans hst
      exact .refl s
  · obtain ⟨u, hu, hparams⟩ := parametersAreFixed.1 s
    obtain rfl : u = t := by simpa using hu.symm.trans hst
    exact hparams

end Sys2Proof.Machine
end

section
/-! PROOFS. The statements of 70_reset_and_hazards.md: reset (R210) and the end of every run (R222, R71). Reset zeroes
the registers that SCRUB zeroes and clears the record besides; a step takes one input off the list and leaves the
others, so a run is as long as its list of inputs. -/

namespace Sys2Proof.Machine

open Claim

/-! ### The state after reset (R210) -/

/-- Settles O45: after reset FAULT, FCODE and FINFO are 0, so there is no record to be of R191's form. -/
theorem recordLegalAtReset : Obligations.RecordLegalAtReset := fun _ => ⟨fun _ => ⟨rfl, rfl⟩, fun e => nomatch e⟩

theorem allZero_resetWith (p : Params) : AllZero (State.resetWith p) := allZero_zeroSecrets (State.resetWith p)

theorem allZero_resetRegisters (s : State) : AllZero s.resetRegisters := allZero_zeroSecrets s

/-- With no fault recorded STATUS shows RESTRICT alone (R31). -/
theorem statusWord_of_clear {s : State} (hf : s.fault = false) (hc : s.fcode = 0) :
    (statusWord s).toNat = 2 ^ 16 * s.params.restrictCtr.toNat := by
  rw [statusWord, hf, hc]
  cases s.params.restrictCtr <;> rfl

/-- The one way out of a fault is a reset: an idle block holds its state, and a transaction keeps the record (R193). -/
theorem reset_of_step_clears_fault {s t : State} (hf : s.fault = true) (hst : step s = .next t)
    (hclear : t.fault = false) : ∃ rest, NextInput s .reset rest := by
  have hne : t.fault ≠ s.fault := by simp [hf, hclear]
  rcases of_step hst with ⟨-, rfl⟩ | ⟨rest, hp, -⟩ | ⟨x, rest, -, hx⟩
  · exact absurd rfl hne
  · exact ⟨rest, hp⟩
  · obtain ⟨hkept, -, -⟩ := hx.keeps_record (s := s.setPending rest) hf
    exact absurd hkept hne

/-- Settles O46: the start state, then a reset between two transactions, then the steps that leave a fault. -/
theorem resetZeroesAndAloneClearsFault : Obligations.ResetZeroesAndAloneClearsFault := by
  refine ⟨fun p => ?_, fun s rest hp => ?_, fun s t => reset_of_step_clears_fault⟩
  · exact ⟨allZero_resetWith p, ⟨rfl, rfl, rfl⟩, statusWord_of_clear rfl rfl, rfl, rfl, rfl, rfl⟩
  · exact ⟨_, step_input hp, allZero_resetRegisters _, ⟨rfl, rfl, rfl⟩, rfl⟩

/-! ### The end of a run (R222, R71) -/

theorem Transacted.pending {x : Transaction} {s t : State} (h : Transacted x s t) : t.pending = s.pending := by
  rcases h.passes_or_answers with rfl | ⟨r, ha⟩
  · rfl
  · exact ha.completes.1

/-- A step takes the next input, if there is one, and leaves those after it. -/
theorem step_pending (s : State) : ∃ t, step s = .next t ∧ t.pending = s.pending.tail := by
  obtain ⟨t, ht, hc⟩ := step_cases s
  refine ⟨t, ht, ?_⟩
  rcases hc with ⟨hp, rfl⟩ | ⟨rest, hp, rfl⟩ | ⟨x, rest, hp, hx⟩ <;> rw [hp]
  · rfl
  · rfl
  · exact hx.pending

/-- A block with no input to come holds its state for any number of steps (R205; log entry 3). -/
theorem run_idle {s : State} (h : s.pending = []) (k : Nat) : Host.Core.run core k s = .next s := by
  induction k with
  | zero => rfl
  | succ k ih => rw [run_succ (step_idle h), ih]

/-- A run of as many steps as there are inputs leaves none, by induction on how many there are. -/
theorem run_pending_length {n : Nat} {s : State} (hn : s.pending.length = n) :
    ∃ t, Host.Core.run core n s = .next t ∧ t.pending = [] := by
  induction n generalizing s with
  | zero => exact ⟨s, rfl, List.length_eq_zero_iff.mp hn⟩
  | succ n ih =>
    obtain ⟨u, hu, htail⟩ := step_pending s
    rw [run_succ hu]
    exact ih (by rw [htail, List.length_tail, hn, Nat.add_sub_cancel])

/-- Settles O59: the run to the last input, and from there the idle block. -/
theorem runsEndAfterTheirInputs : Obligations.RunsEndAfterTheirInputs := by
  intro s k
  obtain ⟨t, hrun, hend⟩ := run_pending_length (s := s) rfl
  exact ⟨t, hrun, hend, by rw [run_add _ _ hrun, run_idle hend]⟩

end Sys2Proof.Machine
end
